-- ==== Sys2Proof/Word.lean ====
section
/-! DEFINITION. The word types of the fun-emu core: bytes, 16-bit addresses and 4-bit register indices. -/

namespace Sys2Proof

/-- A register value, a memory byte, an instruction byte: 8 bits, unsigned (R5, R8). -/
abbrev Byte := BitVec 8

/-- A byte address, `pc`, `sp` or `addr16`: 16 bits, unsigned, wrapping modulo 65536 (R5, R30, R31, R58). -/
abbrev Addr := BitVec 16

/-- A register index: always the 4-bit operand nibble, so always in range (R24). -/
abbrev Reg := BitVec 4

/-- How many byte addresses there are (R50). -/
abbrev addressCount : Nat := 65536

end Sys2Proof
end

