-- ==== Sys2Proof/Syntax.lean ====
section
/-! DEFINITION. The instructions: one constructor per row of spec/opcode_table.json (R85). -/

namespace Sys2Proof

/-- What one step can execute. `n` is the operand nibble, `f` the function code, `d` the literal byte (R81, R84). -/
inductive Instr where
  /-- LIT rn, byte 0x0n: arm the literal latch (R105). -/
  | lit (n : Reg)
  /-- LITDATA, any byte fetched while the latch is armed: the literal-data step (R106). -/
  | litData (d : Byte)
  /-- JMP, byte 0x10 (R120). -/
  | jmp
  /-- CALL, byte 0x11 (R121). -/
  | call
  /-- RET, byte 0x12 (R122). -/
  | ret
  /-- HALT, byte 0x13 (R123). -/
  | halt
  /-- RSV1x, bytes 0x14 to 0x1F, function code `f` (R124). -/
  | rsv1x (f : Reg)
  /-- JNZ rn, byte 0x2n (R125). -/
  | jnz (n : Reg)
  /-- GET rn, byte 0x3n (R140). -/
  | get (n : Reg)
  /-- PUT rn, byte 0x4n (R141). -/
  | put (n : Reg)
  /-- LOAD rn, byte 0x5n (R142). -/
  | load (n : Reg)
  /-- STORE rn, byte 0x6n (R143). -/
  | store (n : Reg)
  /-- CMPEQ rn, byte 0x7n (R160). -/
  | cmpeq (n : Reg)
  /-- CMPGL rn, byte 0x8n (R161). -/
  | cmpgl (n : Reg)
  /-- ADD rn, byte 0x9n (R171). -/
  | add (n : Reg)
  /-- SUB rn, byte 0xAn (R172). -/
  | sub (n : Reg)
  /-- SHL rn, byte 0xBn (R173). -/
  | shl (n : Reg)
  /-- SHR rn, byte 0xCn (R174). -/
  | shr (n : Reg)
  /-- OR rn, byte 0xDn (R175). -/
  | or (n : Reg)
  /-- AND rn, byte 0xEn (R176). -/
  | and (n : Reg)
  /-- NOT rn, byte 0xFn (R177). -/
  | not (n : Reg)
deriving DecidableEq, Repr

/-- Whether the instruction is the literal-data row, the only one a step takes with the latch armed (R82). -/
def Instr.isData : Instr → Bool
  | .litData _ => true
  | .lit _ | .jmp | .call | .ret | .halt | .rsv1x _ | .jnz _ | .get _ | .put _ | .load _ | .store _ | .cmpeq _ | .cmpgl _
  | .add _ | .sub _ | .shl _ | .shr _ | .or _ | .and _ | .not _ => false

/-- The mnemonic of the instruction's row of spec/opcode_table.json (R85, D16). -/
def Instr.mnemonic : Instr → String
  | .lit _ => "LIT"
  | .litData _ => "LITDATA"
  | .jmp => "JMP"
  | .call => "CALL"
  | .ret => "RET"
  | .halt => "HALT"
  | .rsv1x _ => "RSV1x"
  | .jnz _ => "JNZ"
  | .get _ => "GET"
  | .put _ => "PUT"
  | .load _ => "LOAD"
  | .store _ => "STORE"
  | .cmpeq _ => "CMPEQ"
  | .cmpgl _ => "CMPGL"
  | .add _ => "ADD"
  | .sub _ => "SUB"
  | .shl _ => "SHL"
  | .shr _ => "SHR"
  | .or _ => "OR"
  | .and _ => "AND"
  | .not _ => "NOT"

end Sys2Proof
end

