-- ==== Sys2Proof/WellFormed.lean ====
section
/-! DEFINITION. Which instruction terms stand for a byte of the opcode map. -/

namespace Sys2Proof

/-- A register operand is always in range (R24); the one constraint is that a reserved code of class 0x1 is 4 to 15,
since codes 0 to 3 are JMP, CALL, RET and HALT (R81, R124). -/
def Instr.wf : Instr → Bool
  | .rsv1x f => decide (4 ≤ f.toNat)
  | .lit _ | .litData _ | .jmp | .call | .ret | .halt | .jnz _ | .get _ | .put _ | .load _ | .store _ | .cmpeq _ | .cmpgl _
  | .add _ | .sub _ | .shl _ | .shr _ | .or _ | .and _ | .not _ => true

end Sys2Proof
end

