-- ==== Sys2Proof/Decode.lean ====
section
/-! DEFINITION. The decoder, the encoder and the opcode map (30_encoding.md). -/

namespace Sys2Proof

/-- The opcode nibble `op = b[7:4]` (R80). -/
def opNibble (b : Byte) : Reg := b.extractLsb' 4 4

/-- The operand nibble `n = b[3:0]` (R80). -/
def lowNibble (b : Byte) : Reg := b.extractLsb' 0 4

/-- Class 0x1: the low nibble selects the operation (R81 format S, R85). -/
def decodeSystem (f : Reg) : Instr :=
  match f.toNat with
  | 0 => .jmp
  | 1 => .call
  | 2 => .ret
  | 3 => .halt
  | _ => .rsv1x f

/-- The decoder with the latch disarmed: formats R and S (R81, R82, R85). Total: all 16 classes have a row. -/
def decodeOpcode (b : Byte) : Instr :=
  let n := lowNibble b
  match (opNibble b).toNat with
  | 0x0 => .lit n
  | 0x1 => decodeSystem n
  | 0x2 => .jnz n
  | 0x3 => .get n
  | 0x4 => .put n
  | 0x5 => .load n
  | 0x6 => .store n
  | 0x7 => .cmpeq n
  | 0x8 => .cmpgl n
  | 0x9 => .add n
  | 0xA => .sub n
  | 0xB => .shl n
  | 0xC => .shr n
  | 0xD => .or n
  | 0xE => .and n
  | _ => .not n

/-- The decoder of one fetched byte: with the latch armed the byte is data whatever its bits are (R82). -/
def decodeByte (armed : Bool) (b : Byte) : Instr :=
  if armed then .litData b else decodeOpcode b

/-- Why a byte stream has no instruction. No byte value is illegal (R85, R86), so the only reason is that none is left. -/
inductive DecodeError where
  /-- The stream is empty. -/
  | noByte
deriving DecidableEq, Repr

/-- The decoder on a byte stream: every instruction is one byte (R56), and the rest of the stream is left. -/
def decode (armed : Bool) : List Byte → Except DecodeError (Instr × List Byte)
  | [] => .error .noByte
  | b :: rest => .ok (decodeByte armed b, rest)

/-- A byte of format R or S: opcode nibble, then operand nibble or function code (R80, R81). -/
def nibbles (op n : Reg) : Byte := op ++ n

/-- The byte of an instruction, from the byte column of R85. -/
def encodeByte : Instr → Byte
  | .lit n => nibbles 0x0 n
  | .litData d => d
  | .jmp => 0x10
  | .call => 0x11
  | .ret => 0x12
  | .halt => 0x13
  | .rsv1x f => nibbles 0x1 f
  | .jnz n => nibbles 0x2 n
  | .get n => nibbles 0x3 n
  | .put n => nibbles 0x4 n
  | .load n => nibbles 0x5 n
  | .store n => nibbles 0x6 n
  | .cmpeq n => nibbles 0x7 n
  | .cmpgl n => nibbles 0x8 n
  | .add n => nibbles 0x9 n
  | .sub n => nibbles 0xA n
  | .shl n => nibbles 0xB n
  | .shr n => nibbles 0xC n
  | .or n => nibbles 0xD n
  | .and n => nibbles 0xE n
  | .not n => nibbles 0xF n

/-- The bytes of an instruction: always one (R56). LIT's data byte is an instruction of its own, LITDATA. -/
def encode (i : Instr) : List Byte := [encodeByte i]

/-- The host's question: the instruction the decoder reads from `nbits` bits whose value is `w`, the first byte being
bits 7 to 0. The latch is taken as disarmed, since a word alone cannot be a LITDATA (R82). Notes entry 17. -/
def decodeTableWord (nbits w : Nat) : Option Instr :=
  match decode false [BitVec.ofNat 8 (w % 2 ^ nbits)] with
  | .ok (i, _) => some i
  | .error _ => none

/-- One row of the opcode map (R85): the bytes from `first` to `last` have the row's mnemonic. -/
structure OpcodeRow where
  mnemonic : String
  first : Nat
  last : Nat
deriving DecidableEq, Repr

/-- Whether a byte is of the row. -/
def OpcodeRow.covers (r : OpcodeRow) (b : Byte) : Bool := decide (r.first ≤ b.toNat ∧ b.toNat ≤ r.last)

/-- The row of a class that takes all 16 low nibbles. -/
def classRow (mnemonic : String) (op : Nat) : OpcodeRow := ⟨mnemonic, op * 16, op * 16 + 15⟩

/-- The opcode map with the latch disarmed: the byte column of R85, row by row. -/
def opcodeMap : List OpcodeRow :=
  [classRow "LIT" 0x0, ⟨"JMP", 0x10, 0x10⟩, ⟨"CALL", 0x11, 0x11⟩, ⟨"RET", 0x12, 0x12⟩, ⟨"HALT", 0x13, 0x13⟩,
   ⟨"RSV1x", 0x14, 0x1F⟩, classRow "JNZ" 0x2, classRow "GET" 0x3, classRow "PUT" 0x4, classRow "LOAD" 0x5,
   classRow "STORE" 0x6, classRow "CMPEQ" 0x7, classRow "CMPGL" 0x8, classRow "ADD" 0x9, classRow "SUB" 0xA,
   classRow "SHL" 0xB, classRow "SHR" 0xC, classRow "OR" 0xD, classRow "AND" 0xE, classRow "NOT" 0xF]

/-- The length in bytes of the instruction that starts with `b`, at an instruction boundary: LIT takes its data byte
with it (R83). -/
def instrLength (b : Byte) : Nat := if (opNibble b).toNat = 0 then 2 else 1

end Sys2Proof
end

