-- ==== Sys2Proof/Config.lean ====
section
/-! DEFINITION. What the spec leaves to the implementation (R6, 93_implementation_defined.md): opaque constants where it is
OPEN, plain definitions where the spec decides. The parameters of a DEVICE are data in the state (Machine/State.lean). -/

namespace Sys2Proof

/-- The two candidates for a shift by 8 or more (R6 `SHIFT_OVERSIZE`, D7). -/
inductive ShiftOversize where
  /-- The result is 0x00. -/
  | zero
  /-- The amount is taken modulo 8. -/
  | mod8
deriving DecidableEq, Repr, Inhabited

/-- `SHIFT_OVERSIZE`, OPEN (D7, I3): a free value limited to the spec's two candidates. Notes entry 2. -/
opaque Config.shiftOversize : ShiftOversize

/-- `INIT_MEM`, OPEN (R71, D13, I4): what a store byte holds that neither the ROM nor a write has set.
A free value, one byte per address, fixed for the run. Notes entry 1. -/
opaque Config.initMem : Addr → Byte

/-- The fresh free values of reads the spec gives no value (R62, I11), by the counter `Bus.free`. Notes entry 7. -/
opaque Config.freeByte : Nat → Byte

/-- `HALT13_ADVANCES`, decided false by the spec (R6, D5): byte 0x13 leaves `pc` unchanged. Notes entry 3. -/
def Config.halt13Advances : Bool := false

end Sys2Proof
end

