-- ==== Sys2Proof/Machine/State.lean ====
section
/-! DEFINITION. The state of the machine: the core (R20), the store and the device behind the multiplexer (R61, R214 to
R218), all of it plain data; the reasons a step or a host action can stop; the state after reset (R36). -/

namespace Sys2Proof.Machine

/-- The bytes the ROM and writes have set, by address, addresses strictly rising. A byte that is not listed has never been
set and reads as `Config.initMem` (R71). Notes entry 1. -/
abbrev Memory := List Host.Cell

/-- The canonical form: addresses strictly rising, each below 65536 (R50). -/
abbrev Memory.wf (m : Memory) : Prop := m.Pairwise (fun c d => c.1 < d.1) ∧ ∀ c ∈ m, c.1 < addressCount

/-- What a read of a write-only special address returns: left to the device's parameters (R62, D18, I11). -/
inductive ReadBack where
  /-- The store byte of that address. -/
  | store
  /-- This byte. -/
  | byte (v : Byte)
  /-- Any value: a fresh free value each time. -/
  | anyValue
deriving DecidableEq, Repr

/-- A special address whose write the device's logic takes, with the two points R62 leaves to the device: whether the
write also sets the store byte, and what a read returns. -/
structure WriteOnly where
  addr : Addr
  alsoStores : Bool
  readBack : ReadBack
deriving DecidableEq, Repr

/-- The Button+LED device (R216). -/
structure ButtonLed where
  /-- `BTN_PRESSED`, a parameter (D20). -/
  pressedByte : Byte
  /-- `BTN_RELEASED`, a parameter (D20). -/
  releasedByte : Byte
  /-- Whether a write to address 1 also writes `store[1]`, a parameter (D20, I14). -/
  buttonStores : Bool
  /-- The LED byte, visible to the outside world. -/
  led : Byte
  /-- Whether the button is pressed: set by the host (R219). -/
  pressed : Bool
deriving DecidableEq, Repr

/-- `TD_VARIANT` with the parameters of each variant (R217, D21). -/
inductive TextVariant where
  /-- Row-select: a write to `row.addr` (`TD_ROW_ADDR`) copies the slice at `sliceBase` (`TD_SLICE_BASE`) into the row
  that `rowOf` gives for the written value. -/
  | rowSelect (row : WriteOnly) (sliceBase : Addr) (rowOf : List (Byte × Nat))
  /-- Cell-addressed: `TD_CHAR_ADDR`, `TD_CURX_ADDR`, `TD_CURY_ADDR`, and which of their writes updates the cell. -/
  | cell (char curX curY : WriteOnly) (onChar onCurX onCurY : Bool)
deriving DecidableEq, Repr

/-- The parameters of the Text display device (R217, D21). -/
structure TextParams where
  /-- `TD_ROWS`. -/
  rows : Nat
  /-- `TD_COLS`. -/
  cols : Nat
  variant : TextVariant
  /-- `TD_KEY_ADDR`. -/
  keyAddr : Addr
  /-- `TD_KEY_SENTINEL`. -/
  keySentinel : Byte
  /-- `TD_KEY_CONSUME`: whether a read of the key address resets it to the sentinel. -/
  keyConsume : Bool
  /-- Whether a write to the key address also writes the store (I14). -/
  keyStores : Bool
deriving DecidableEq, Repr

/-- The Text display device (R217). -/
structure TextDisplay where
  params : TextParams
  /-- The character cells, row by row, visible to the renderer only. -/
  grid : List (List Byte)
  /-- The last key the host reported, or none when idle. -/
  key : Option Byte
  /-- The bytes last written to "current character", "cursor-x" and "cursor-y" (cell-addressed variant). The cursor counts
  cells and rows from 0, the model's choice: notes entry 10. -/
  char : Byte
  curX : Byte
  curY : Byte
deriving DecidableEq, Repr

/-- The parameters of the Command/controller device (R218, D22). -/
structure CommandParams where
  /-- `CMD_TRIGGER_ADDR`, and what a read of it returns. -/
  trigger : WriteOnly
  /-- `CMD_INPUT_ADDR`. -/
  inputAddr : Addr
  /-- `CMD_INPUT_BITS`: the bit position of each input; two inputs may share one (I12). -/
  inputBits : List (Fin 8)
  /-- The bits of the input byte that read inverted. Notes entry 11. -/
  inputInvert : Byte
  /-- Whether a write to the input address also writes the store (I14). -/
  inputStores : Bool
deriving DecidableEq, Repr

/-- The Command/controller device (R218). -/
structure Command where
  params : CommandParams
  /-- The buffer the CPU writes. -/
  wbuf : Vector Byte 128
  /-- The buffer the CPU and the renderer read. -/
  rbuf : Vector Byte 128
  /-- The live digital inputs: set by the host (R219). -/
  inputs : List Bool
deriving DecidableEq, Repr

/-- `DEVICE`: the one device of the bus (R214, D28), with its parameters and its state. -/
inductive Device where
  /-- Pure passthrough to the store (R215). -/
  | ramOnly
  | buttonLed (d : ButtonLed)
  | textDisplay (d : TextDisplay)
  | command (d : Command)
deriving DecidableEq, Repr

/-- What is behind the bus: the device's 65536-byte store, the device, and the model's own counter of the free values
already handed out. -/
structure Bus where
  store : Memory
  dev : Device
  free : Nat
deriving DecidableEq, Repr

/-- The literal latch (R32). -/
structure Latch where
  armed : Bool
  target : Reg
deriving DecidableEq, Repr

/-- The whole machine: `x[0]` to `x[15]`, `pc`, `sp` and the latch (R20), and the bus with its device. -/
structure State where
  regs : Vector Byte 16
  pc : Addr
  sp : Addr
  latch : Latch
  bus : Bus
deriving DecidableEq, Repr

/-- Why the machine stops with a fault: never. "The core has no internal failure mode" (R103, R200), and a device's own
failures stay in the device (R201), so there is no constructor. -/
inductive Fault where
deriving DecidableEq, Repr

/-- Why a step or a host action is refused. -/
inductive Refusal where
  /-- Raised by `exec` for an instruction that has no meaning yet; every instruction has one, so nothing raises it. Safe. -/
  | notModelled (mnemonic : String)
  /-- Raised by the host's ROM load, never by a step, when the image is longer than 65536 bytes: such a launch is outside
  the spec (R243, I5). Safe. -/
  | oversizeRom (length : Nat)
deriving DecidableEq, Repr

/-- The state after reset (R36, R240), on the reference platform (R72) with nothing in the store set yet. The device and
the store are not set by the core's reset (R242): notes entries 1, 4 and 7. -/
def State.reset : State where
  regs := Vector.replicate 16 0#8
  pc := 0x0100#16
  sp := 0x0400#16
  latch := { armed := false, target := 0#4 }
  bus := { store := [], dev := .ramOnly, free := 0 }

end Sys2Proof.Machine
end

