-- ==== Sys2Proof/Machine/Ops.lean ====
section
/-! DEFINITION. The named operations on the core's registers and on the store, the post-step increment, and the one
exception-like event of the machine, `interrupt(addr)`. -/

namespace Sys2Proof.Machine

/-! ## Registers -/

/-- `x[n]` (R9, R22). -/
def State.reg (s : State) (n : Reg) : Byte := s.regs[n.toNat]'n.isLt

/-- `x[n] <- v` (R9, R22): no register is hardwired. -/
def State.setReg (s : State) (n : Reg) (v : Byte) : State := { s with regs := s.regs.set n.toNat v n.isLt }

/-- `pc <- v` (R9). -/
def State.setPc (s : State) (v : Addr) : State := { s with pc := v }

/-- `sp <- v` (R9). -/
def State.setSp (s : State) (v : Addr) : State := { s with sp := v }

/-- `latch.armed <- 1`, `latch.target <- n` (R105). -/
def State.arm (s : State) (n : Reg) : State := { s with latch := { armed := true, target := n } }

/-- `latch.armed <- 0` (R106): the target keeps its value. -/
def State.disarm (s : State) : State := { s with latch := { s.latch with armed := false } }

/-- The post-step increment `pc <- (pc + 1) mod 65536` that ends every step (R100, R101). -/
def State.postStep (s : State) : State := s.setPc (s.pc + 1#16)

/-- The control transfer of R9 and R101: `target - 1` is written, so that the post-step increment lands on the target. -/
def State.transfer (s : State) (target : Addr) : State := s.setPc (target - 1#16)

/-! ## The store -/

/-- The listed byte at an address, if there is one. -/
def Memory.byteAt : Memory → Nat → Option Byte
  | [], _ => none
  | (k, v) :: m, a => if k = a then some v else Memory.byteAt m a

/-- The store with the byte at `a` set, in canonical form. -/
def Memory.set : Memory → Nat → Byte → Memory
  | [], a, v => [(a, v)]
  | (k, w) :: m, a, v =>
    if a < k then (a, v) :: (k, w) :: m
    else if a = k then (a, v) :: m
    else (k, w) :: Memory.set m a v

/-- `store[a]` (R61): the last byte set there, else the initial content (R63, R71). -/
def Memory.read (m : Memory) (a : Addr) : Byte := (Memory.byteAt m a.toNat).getD (Config.initMem a)

/-- `store[a] <- v` (R61). -/
def Memory.write (m : Memory) (a : Addr) (v : Byte) : Memory := Memory.set m a.toNat v

/-! ## Interrupt and reset -/

/-- `interrupt(addr)`: `pc <- addr` and nothing else, with no post-step increment; an armed latch stays armed (R203, R108).
It is the machine's one exception-like entry. It saves nothing and there is no return from it (R205). -/
def State.interrupt (s : State) (addr : Addr) : State := s.setPc addr

/-- Reset applied to a running machine: the whole core state, and no bus transaction (R240, R242, D11). -/
def State.hostReset (s : State) : State := { State.reset with bus := s.bus }

end Sys2Proof.Machine
end

