-- ==== Sys2Proof/Machine/Device.lean ====
section
/-! DEFINITION. The peripheral multiplexer and the four devices: `devRead` and `devWrite` of R62, as total functions of
the bus (R51). Off the special set both are the plain store (R61). -/

namespace Sys2Proof.Machine

/-! ## Special addresses -/

/-- The special addresses of a Text display that its write logic takes (R217). -/
def TextVariant.writeOnly : TextVariant → List WriteOnly
  | .rowSelect row _ _ => [row]
  | .cell char curX curY _ _ _ => [char, curX, curY]

/-- The set `S` of the device's special addresses (R61, R215 to R218). -/
def Device.special : Device → Addr → Bool
  | .ramOnly, _ => false
  | .buttonLed _, a => a == 0#16 || a == 1#16
  | .textDisplay d, a => a == d.params.keyAddr || d.params.variant.writeOnly.any (fun w => w.addr == a)
  | .command d, a => decide (a.toNat < 128) || a == d.params.trigger.addr || a == d.params.inputAddr

/-! ## The plain store behind a device -/

/-- A read that goes to the store (R61). -/
def Bus.readStore (b : Bus) (a : Addr) : Byte × Bus := (Memory.read b.store a, b)

/-- A write that goes to the store (R61). -/
def Bus.writeStore (b : Bus) (a : Addr) (v : Byte) : Bus := { b with store := Memory.write b.store a v }

/-- A write that goes to the store only if the device's parameters say so (R62, D18). -/
def Bus.writeStoreIf (b : Bus) (also : Bool) (a : Addr) (v : Byte) : Bus := if also then b.writeStore a v else b

/-- A read of a write-only special address (R62, I11). -/
def Bus.readWriteOnly (b : Bus) (w : WriteOnly) (a : Addr) : Byte × Bus :=
  match w.readBack with
  | .store => b.readStore a
  | .byte v => (v, b)
  | .anyValue => (Config.freeByte b.free, { b with free := b.free + 1 })

/-! ## Button+LED (R216) -/

/-- The byte a read of the button address returns. -/
def ButtonLed.buttonByte (d : ButtonLed) : Byte := if d.pressed then d.pressedByte else d.releasedByte

/-- Reads: address 0 is `store[0]`, address 1 the button, the rest the store. -/
def Bus.readButtonLed (b : Bus) (d : ButtonLed) (a : Addr) : Byte × Bus :=
  if a = 1#16 then (d.buttonByte, b) else b.readStore a

/-- Writes: address 0 sets the LED byte and `store[0]`, address 1 is read-only, the rest is the store. -/
def Bus.writeButtonLed (b : Bus) (d : ButtonLed) (a : Addr) (v : Byte) : Bus :=
  if a = 0#16 then { b.writeStore a v with dev := .buttonLed { d with led := v } }
  else if a = 1#16 then b.writeStoreIf d.buttonStores a v
  else b.writeStore a v

/-! ## Text display (R217) -/

/-- The byte a read of the key address returns: the last key, or the sentinel when idle. -/
def TextDisplay.keyByte (d : TextDisplay) : Byte := d.key.getD d.params.keySentinel

/-- What a read of the key address leaves: with `TD_KEY_CONSUME` the key is reset to the sentinel (D21). -/
def TextDisplay.afterKeyRead (d : TextDisplay) : TextDisplay := if d.params.keyConsume then { d with key := none } else d

/-- Reads: the key address, the write-only addresses by their parameters, the rest the store. -/
def Bus.readTextDisplay (b : Bus) (d : TextDisplay) (a : Addr) : Byte × Bus :=
  if a = d.params.keyAddr then (d.keyByte, { b with dev := .textDisplay d.afterKeyRead })
  else
    match d.params.variant.writeOnly.find? (fun w => w.addr == a) with
    | some w => b.readWriteOnly w a
    | none => b.readStore a

/-- `store[base]` to `store[base + cols - 1]` (R217). DEDUCED from R58, unsafe for a slice across 0xFFFF: the addresses wrap.
Notes entry 8. -/
def storeSlice (m : Memory) (base : Addr) (cols : Nat) : List Byte :=
  (List.range cols).map (fun i => Memory.read m (base + BitVec.ofNat 16 i))

/-- The grid with one row replaced by the RAM slice; a value that selects no row of the grid changes nothing. -/
def TextDisplay.snapshot (d : TextDisplay) (m : Memory) (base : Addr) (row : Option Nat) : TextDisplay :=
  match row with
  | some r => { d with grid := d.grid.set r (storeSlice m base d.params.cols) }
  | none => d

/-- The grid with the cell under the cursor set to the current character. DESIGN CHOICE, unsafe: the spec gives the cursor no
origin (N19); here both bytes count from 0, cursor-y the rows and cursor-x the cells of a row, and a cursor outside the grid
changes nothing. Notes entry 10. -/
def TextDisplay.updateCell (d : TextDisplay) : TextDisplay :=
  { d with grid := d.grid.set d.curY.toNat ((d.grid.getD d.curY.toNat []).set d.curX.toNat d.char) }

/-- A write to one of the three addresses of the cell-addressed variant: `d` has the byte latched already, and the cell is
updated if this write is a trigger. -/
def Bus.writeCell (b : Bus) (d : TextDisplay) (w : WriteOnly) (trigger : Bool) (a : Addr) (v : Byte) : Bus :=
  { b.writeStoreIf w.alsoStores a v with dev := .textDisplay (if trigger then d.updateCell else d) }

/-- Writes: the key address is read-only, the trigger of the row-select variant takes its snapshot, the three addresses of
the cell-addressed variant latch their byte, the rest is the store. -/
def Bus.writeTextDisplay (b : Bus) (d : TextDisplay) (a : Addr) (v : Byte) : Bus :=
  if a = d.params.keyAddr then b.writeStoreIf d.params.keyStores a v
  else
    match d.params.variant with
    | .rowSelect row base rowOf =>
      if a = row.addr then
        let b' := b.writeStoreIf row.alsoStores a v
        { b' with dev := .textDisplay (d.snapshot b'.store base (rowOf.lookup v)) }
      else b.writeStore a v
    | .cell char curX curY onChar onCurX onCurY =>
      if a = char.addr then b.writeCell { d with char := v } char onChar a v
      else if a = curX.addr then b.writeCell { d with curX := v } curX onCurX a v
      else if a = curY.addr then b.writeCell { d with curY := v } curY onCurY a v
      else b.writeStore a v

/-! ## Command/controller (R218) -/

/-- The bits of the active inputs, one per input, two inputs on one bit joined (I12). -/
def activeInputs (inputs : List Bool) (bits : List (Fin 8)) : Byte :=
  (inputs.zip bits).foldr (fun p acc => if p.1 then acc ||| (1 : Byte) <<< p.2.val else acc) 0

/-- The byte a read of the input address returns. -/
def Command.inputByte (d : Command) : Byte := activeInputs d.inputs d.params.inputBits ^^^ d.params.inputInvert

/-- The swap of the two buffers as one indivisible action. -/
def Command.swap (d : Command) : Command := { d with wbuf := d.rbuf, rbuf := d.wbuf }

/-- Reads: the window is `rbuf`, then the trigger by its parameter, the input byte, and the rest the store. -/
def Bus.readCommand (b : Bus) (d : Command) (a : Addr) : Byte × Bus :=
  if h : a.toNat < 128 then (d.rbuf[a.toNat], b)
  else if a = d.params.trigger.addr then b.readWriteOnly d.params.trigger a
  else if a = d.params.inputAddr then (d.inputByte, b)
  else b.readStore a

/-- Writes: the window is `wbuf`, any write to the trigger swaps the buffers, the input address is read-only, the rest is
the store. -/
def Bus.writeCommand (b : Bus) (d : Command) (a : Addr) (v : Byte) : Bus :=
  if h : a.toNat < 128 then { b with dev := .command { d with wbuf := d.wbuf.set a.toNat v } }
  else if a = d.params.trigger.addr then { b.writeStoreIf d.params.trigger.alsoStores a v with dev := .command d.swap }
  else if a = d.params.inputAddr then b.writeStoreIf d.params.inputStores a v
  else b.writeStore a v

/-! ## The bus (R51) -/

/-- `read(a)`: always a byte, through the multiplexer (R51, R62, R63). -/
def Bus.read (b : Bus) (a : Addr) : Byte × Bus :=
  match b.dev with
  | .ramOnly => b.readStore a
  | .buttonLed d => b.readButtonLed d a
  | .textDisplay d => b.readTextDisplay d a
  | .command d => b.readCommand d a

/-- `write(a, v)`: always completes, through the multiplexer (R51, R62, R63). -/
def Bus.write (b : Bus) (a : Addr) (v : Byte) : Bus :=
  match b.dev with
  | .ramOnly => b.writeStore a v
  | .buttonLed d => b.writeButtonLed d a v
  | .textDisplay d => b.writeTextDisplay d a v
  | .command d => b.writeCommand d a v

/-- `MemRead(a, 1)` (R9): the byte, and the machine after the read. -/
def State.busRead (s : State) (a : Addr) : Byte × State := ((s.bus.read a).1, { s with bus := (s.bus.read a).2 })

/-- `MemWrite(a, 1, v)` (R9). -/
def State.busWrite (s : State) (a : Addr) (v : Byte) : State := { s with bus := s.bus.write a v }

/-- The byte a read of one address returns now: the model's read of one byte, for statements. -/
def State.peek (s : State) (a : Addr) : Byte := (s.bus.read a).1

/-! ## Fetch -/

/-- The fetch of R100: one bus read at `pc`, first in every step. -/
def State.fetch (s : State) : Byte × State := s.busRead s.pc

/-- The device, unless `a` is one of its special addresses: there the plain RAM device stands in. -/
def Device.plainAt (d : Device) (a : Addr) : Device := if d.special a then .ramOnly else d

/-- `s` with the byte `v` in the store at `pc`, the latch disarmed so that the byte is decoded and not taken as data, and
a device that answers the fetch from the store. Notes entry 14. -/
def State.placeByte (s : State) (v : Byte) : State :=
  { s.disarm with bus := { s.bus with store := Memory.write s.bus.store s.pc v, dev := s.bus.dev.plainAt s.pc } }

end Sys2Proof.Machine
end

