-- ==== Sys2Proof/Machine/Operands.lean ====
section
/-! DEFINITION. The operand forms of R84 and R144: the address pair, the accumulator, the stack, and the targets of class
0x1. The register nibble is `State.reg`, the literal is the fetched byte itself. -/

namespace Sys2Proof.Machine

/-- A 16-bit value from its high and low byte: `hi * 256 + lo` (R8). -/
def word16 (hi lo : Byte) : Addr := hi ++ lo

/-- Bits 7 to 0 of a 16-bit value (R7). -/
def lowByte (v : Addr) : Byte := v.extractLsb' 0 8

/-- Bits 15 to 8 of a 16-bit value (R7). -/
def highByte (v : Addr) : Byte := v.extractLsb' 8 8

/-- `addr16 = x[1] * 256 + x[2]` (R21). -/
def State.addr16 (s : State) : Addr := word16 (s.reg 1#4) (s.reg 2#4)

/-- The accumulator `x[0]`, implicit source (R23, R84). -/
abbrev State.acc (s : State) : Byte := s.reg 0#4

/-- `x[0] <- v`, the implicit destination (R23, R84). -/
def State.setAcc (s : State) (v : Byte) : State := s.setReg 0#4 v

/-- The status register `x[3]` (R27). -/
abbrev State.status (s : State) : Byte := s.reg 3#4

/-- A write of the status register by a flag computation (R27). -/
def State.setStatus (s : State) (v : Byte) : State := s.setReg 3#4 v

/-- The push of a return address: `sp` down by 2, then the low byte at `sp`, then the high byte at `sp + 1` (R54, R55,
R121), which wraps (R58; the spec's own decision D8, notes entry 3). -/
def State.push16 (s : State) (v : Addr) : State :=
  let s1 := s.setSp (s.sp - 2#16)
  let s2 := s1.busWrite s1.sp (lowByte v)
  s2.busWrite (s1.sp + 1#16) (highByte v)

/-- The pop of a return address: the low byte at `sp`, then the high byte at `sp + 1`, then `sp` up by 2 (R54, R55,
R122). The order of the reads and the wrap of `sp + 1` (R58) are the spec's own decisions D9 and D8, notes entry 3. -/
def State.pop16 (s : State) : Addr × State :=
  let lo := s.busRead s.sp
  let hi := lo.2.busRead (s.sp + 1#16)
  (word16 hi.1 lo.1, hi.2.setSp (s.sp + 2#16))

/-- What byte 0x13 writes to `pc` before the post-step increment: `pc - 1`, so that the two cancel out, or under
`HALT13_ADVANCES` nothing (R123, D5). -/
def haltPc (advances : Bool) (pc : Addr) : Addr := if advances then pc else pc - 1#16

end Sys2Proof.Machine
end

