-- ==== Sys2Proof/Machine/Flags.lean ====
section
/-! DEFINITION. The three fields of the status register `x[3]` and the flag computations (R27, R28, R171, R172). -/

namespace Sys2Proof.Machine

/-- DIR, bit 0: the direction of CMPGL (R27). -/
def dirBit (st : Byte) : Bool := st.getLsbD 0

/-- OV, bit 1: the last ADD's overflow (R27). -/
def ovBit (st : Byte) : Bool := st.getLsbD 1

/-- UF, bit 2: the last SUB's underflow (R27). -/
def ufBit (st : Byte) : Bool := st.getLsbD 2

/-- The status byte with OV set or cleared and every other bit kept (R28, R171). -/
def withOv (st : Byte) (ov : Bool) : Byte := (st &&& 0xFD#8) ||| (if ov then 0x02#8 else 0x00#8)

/-- The status byte with UF set or cleared and every other bit kept (R28, R172). -/
def withUf (st : Byte) (uf : Bool) : Byte := (st &&& 0xFB#8) ||| (if uf then 0x04#8 else 0x00#8)

/-- OV: "iff the unwrapped add overflows 8 bits" (R171). -/
def addOverflows (a b : Byte) : Bool := decide (a.toNat + b.toNat > 255)

/-- UF: "iff the unwrapped sub underflows", the unsigned borrow (R172). -/
def subUnderflows (a b : Byte) : Bool := decide (a.toNat < b.toNat)

end Sys2Proof.Machine
end

