-- ==== Sys2Proof/Machine/Alu.lean ====
section
/-! DEFINITION. Arithmetic and logic: ADD to NOT (44_alu.md). Operands are read before any write (R170). -/

namespace Sys2Proof.Machine

/-- `(a + b) mod 256` (R171). -/
def addWrapped (a b : Byte) : Byte := BitVec.ofNat 8 (a.toNat + b.toNat)

/-- `(a - b) mod 256`, that is `a - b + 256` when `a < b` (R172). -/
def subWrapped (a b : Byte) : Byte := BitVec.ofNat 8 (a.toNat + 256 - b.toNat)

/-- The left shift of R173: zeros in, high bits lost; an amount of 8 or more by `SHIFT_OVERSIZE`. -/
def shiftLeft (oversize : ShiftOversize) (a amount : Byte) : Byte :=
  if amount.toNat < 8 then a <<< amount.toNat
  else
    match oversize with
    | .zero => 0x00#8
    | .mod8 => a <<< (amount.toNat % 8)

/-- The logical right shift of R174: zeros in; an amount of 8 or more by `SHIFT_OVERSIZE`. -/
def shiftRight (oversize : ShiftOversize) (a amount : Byte) : Byte :=
  if amount.toNat < 8 then a >>> amount.toNat
  else
    match oversize with
    | .zero => 0x00#8
    | .mod8 => a >>> (amount.toNat % 8)

/-- ADD rn: OV, then the wrapped sum (R171). -/
def execAdd (n : Reg) (s : State) : Host.Outcome State Fault Refusal :=
  .next ((s.setStatus (withOv s.status (addOverflows s.acc (s.reg n)))).setAcc (addWrapped s.acc (s.reg n))).postStep

/-- SUB rn: UF, then the wrapped difference (R172). -/
def execSub (n : Reg) (s : State) : Host.Outcome State Fault Refusal :=
  .next ((s.setStatus (withUf s.status (subUnderflows s.acc (s.reg n)))).setAcc (subWrapped s.acc (s.reg n))).postStep

/-- SHL rn (R173). -/
def execShl (n : Reg) (s : State) : Host.Outcome State Fault Refusal :=
  .next (s.setAcc (shiftLeft Config.shiftOversize s.acc (s.reg n))).postStep

/-- SHR rn (R174). -/
def execShr (n : Reg) (s : State) : Host.Outcome State Fault Refusal :=
  .next (s.setAcc (shiftRight Config.shiftOversize s.acc (s.reg n))).postStep

/-- OR rn (R175). -/
def execOr (n : Reg) (s : State) : Host.Outcome State Fault Refusal :=
  .next (s.setAcc (s.acc ||| s.reg n)).postStep

/-- AND rn (R176). -/
def execAnd (n : Reg) (s : State) : Host.Outcome State Fault Refusal :=
  .next (s.setAcc (s.acc &&& s.reg n)).postStep

/-- NOT rn: every bit of `x[n]` inverted, into the accumulator (R177). -/
def execNot (n : Reg) (s : State) : Host.Outcome State Fault Refusal :=
  .next (s.setAcc (s.reg n ^^^ 0xFF#8)).postStep

end Sys2Proof.Machine
end

