-- ==== Sys2Proof/Machine/Compare.lean ====
section
/-! DEFINITION. Compare: CMPEQ and CMPGL (43_compare.md). Neither writes the status register; both compare unsigned (D3). -/

namespace Sys2Proof.Machine

/-- CMPEQ's outcome: 0x01 for equal, 0x00 for not (R160). -/
def compareEqual (a b : Byte) : Byte := if a = b then 0x01#8 else 0x00#8

/-- CMPGL's outcome: 0xFF or 0x00, greater-than with DIR = 1, less-than with DIR = 0 (R161). -/
def compareByDir (dir : Bool) (a b : Byte) : Byte :=
  if dir then (if a.toNat > b.toNat then 0xFF#8 else 0x00#8)
  else (if a.toNat < b.toNat then 0xFF#8 else 0x00#8)

/-- CMPEQ rn (R160). -/
def execCmpeq (n : Reg) (s : State) : Host.Outcome State Fault Refusal :=
  .next (s.setAcc (compareEqual s.acc (s.reg n))).postStep

/-- CMPGL rn (R161). -/
def execCmpgl (n : Reg) (s : State) : Host.Outcome State Fault Refusal :=
  .next (s.setAcc (compareByDir (dirBit s.status) s.acc (s.reg n))).postStep

end Sys2Proof.Machine
end

