-- ==== Sys2Proof/Machine/Control.lean ====
section
/-! DEFINITION. Control transfer: class 0x1 and JNZ (41_control.md). Every transfer writes `target - 1` and is followed by
the post-step increment (R101). -/

namespace Sys2Proof.Machine

/-- JMP (R120). -/
def execJmp (s : State) : Host.Outcome State Fault Refusal :=
  .next (s.transfer s.addr16).postStep

/-- CALL: the address of the CALL byte itself is pushed (R121). -/
def execCall (s : State) : Host.Outcome State Fault Refusal :=
  .next ((s.push16 s.pc).transfer s.addr16).postStep

/-- RET: the popped value is written to `pc`, and the post-step increment adds the 1 (R122). -/
def execRet (s : State) : Host.Outcome State Fault Refusal :=
  .next (s.pop16.2.setPc s.pop16.1).postStep

/-- HALT, byte 0x13: "decrement then auto-increment cancel out" (R123). -/
def execHalt (s : State) : Host.Outcome State Fault Refusal :=
  .next (s.setPc (haltPc Config.halt13Advances s.pc)).postStep

/-- RSV1x, bytes 0x14 to 0x1F: only the post-step increment (R124, `RESERVED_1X` = `nop`). -/
def execRsv1x (_f : Reg) (s : State) : Host.Outcome State Fault Refusal :=
  .next s.postStep

/-- JNZ rn (R125). -/
def execJnz (n : Reg) (s : State) : Host.Outcome State Fault Refusal :=
  .next (if s.reg n ≠ 0#8 then s.transfer s.addr16 else s).postStep

end Sys2Proof.Machine
end

