-- ==== Sys2Proof/Machine/Literal.lean ====
section
/-! DEFINITION. LOAD-LITERAL: LIT and the literal-data step (40_step_and_literal.md). Every meaning takes the state the
fetch leaves, `pc` still at the fetched byte, and ends with the post-step increment (R100). -/

namespace Sys2Proof.Machine

/-- LIT rn: arm the latch with target `n` (R105). -/
def execLit (n : Reg) (s : State) : Host.Outcome State Fault Refusal :=
  .next (s.arm n).postStep

/-- The literal-data step: the fetched byte goes verbatim into `x[latch.target]`, and the latch is disarmed (R106). -/
def execLitData (d : Byte) (s : State) : Host.Outcome State Fault Refusal :=
  .next (s.setReg s.latch.target d).disarm.postStep

end Sys2Proof.Machine
end

