-- ==== Sys2Proof/Machine/Move.lean ====
section
/-! DEFINITION. Register moves, LOAD and STORE (42_move_memory.md). -/

namespace Sys2Proof.Machine

/-- GET rn: `x[0] <- x[n]` (R140). -/
def execGet (n : Reg) (s : State) : Host.Outcome State Fault Refusal :=
  .next (s.setAcc (s.reg n)).postStep

/-- PUT rn: `x[n] <- x[0]` (R141). -/
def execPut (n : Reg) (s : State) : Host.Outcome State Fault Refusal :=
  .next (s.setReg n s.acc).postStep

/-- LOAD rn: `x[n] <- MemRead(addr16, 1)`, the address taken before the write (R142). -/
def execLoad (n : Reg) (s : State) : Host.Outcome State Fault Refusal :=
  .next ((s.busRead s.addr16).2.setReg n (s.busRead s.addr16).1).postStep

/-- STORE rn: `MemWrite(addr16, 1, x[n])` (R143). -/
def execStore (n : Reg) (s : State) : Host.Outcome State Fault Refusal :=
  .next (s.busWrite s.addr16 (s.reg n)).postStep

end Sys2Proof.Machine
end

