-- ==== Sys2Proof/Machine/Dispatch.lean ====
section
/-! DEFINITION. One arm per instruction: the `execute` of R100 with the post-step increment that follows it. -/

namespace Sys2Proof.Machine

/-- The meaning of the decoded instruction, on the state its fetch leaves. -/
def exec (i : Instr) (s : State) : Host.Outcome State Fault Refusal :=
  match i with
  | .lit n => Sys2Proof.Machine.execLit n s
  | .litData d => Sys2Proof.Machine.execLitData d s
  | .jmp => Sys2Proof.Machine.execJmp s
  | .call => Sys2Proof.Machine.execCall s
  | .ret => Sys2Proof.Machine.execRet s
  | .halt => Sys2Proof.Machine.execHalt s
  | .rsv1x f => Sys2Proof.Machine.execRsv1x f s
  | .jnz n => Sys2Proof.Machine.execJnz n s
  | .get n => Sys2Proof.Machine.execGet n s
  | .put n => Sys2Proof.Machine.execPut n s
  | .load n => Sys2Proof.Machine.execLoad n s
  | .store n => Sys2Proof.Machine.execStore n s
  | .cmpeq n => Sys2Proof.Machine.execCmpeq n s
  | .cmpgl n => Sys2Proof.Machine.execCmpgl n s
  | .add n => Sys2Proof.Machine.execAdd n s
  | .sub n => Sys2Proof.Machine.execSub n s
  | .shl n => Sys2Proof.Machine.execShl n s
  | .shr n => Sys2Proof.Machine.execShr n s
  | .or n => Sys2Proof.Machine.execOr n s
  | .and n => Sys2Proof.Machine.execAnd n s
  | .not n => Sys2Proof.Machine.execNot n s

end Sys2Proof.Machine
end

