-- ==== Sys2Proof/Machine/Step.lean ====
section
/-! DEFINITION. One step of the core (R100), and the host's placing of an instruction where the step fetches it. -/

namespace Sys2Proof.Machine

/-- `step()` of R100: one fetch at `pc`, the decode by `latch.armed` (R82), the instruction with its post-step increment. -/
def step (s : State) : Host.Outcome State Fault Refusal :=
  exec (decodeByte s.latch.armed s.fetch.1) s.fetch.2

/-- `s` with the instruction byte of the low `nbits` of `w` where the next step fetches and decodes it: an instruction is
one byte (R56). It stands for the host's ROM load. Notes entry 14. -/
def State.withFetchWord (s : State) (nbits w : Nat) : State := s.placeByte (BitVec.ofNat 8 (w % 2 ^ nbits))

end Sys2Proof.Machine
end

