-- ==== Sys2Proof/Machine/Assembler.lean ====
section
/-! DEFINITION. The spec's assembly language (R87), its pseudo-instructions (R88) and the disassembly of a byte range
(R89), over abstract lines; `text` gives a disassembled line its written form. Notes entry 18. -/

namespace Sys2Proof.Machine

/-! ## Disassembled lines (R89) -/

/-- A line a disassembler prints. -/
inductive AsmLine where
  /-- `LIT rn, d`: two bytes. -/
  | lit (n : Reg) (d : Byte)
  /-- A one-byte row of R85. -/
  | op (i : Instr)
  /-- A LIT byte at the end of the range, with no next byte to print. -/
  | litEnd (n : Reg)
deriving DecidableEq, Repr

/-- The bytes of a line. -/
def AsmLine.bytes : AsmLine → List Byte
  | .lit n d => [nibbles 0x0 n, d]
  | .op i => [encodeByte i]
  | .litEnd n => [nibbles 0x0 n]

/-- Disassembly from a known instruction start (R89). -/
def disassemble : List Byte → List AsmLine
  | [] => []
  | [b] => match decodeOpcode b with
    | .lit n => [.litEnd n]
    | i => [.op i]
  | b :: d :: rest => match decodeOpcode b with
    | .lit n => .lit n d :: disassemble rest
    | i => .op i :: disassemble (d :: rest)

/-- The register operand of the one-byte rows of format R (R81). -/
def operandReg : Instr → Option Reg
  | .lit n | .jnz n | .get n | .put n | .load n | .store n | .cmpeq n | .cmpgl n | .add n | .sub n | .shl n | .shr n
  | .or n | .and n | .not n => some n
  | .litData _ | .jmp | .call | .ret | .halt | .rsv1x _ => none

/-- A hexadecimal digit. -/
def hexDigit (n : Nat) : String := (("0123456789ABCDEF".toList).getD n '0').toString

/-- A byte as `0x..` (R7). -/
def hexByte (v : Byte) : String := "0x" ++ hexDigit (v.toNat / 16) ++ hexDigit (v.toNat % 16)

/-- A register operand, `r0` to `r15` (R87). -/
def regName (n : Reg) : String := "r" ++ toString n.toNat

/-- The written form of a line (R87, R89): reserved and data bytes are written `.byte v`. -/
def AsmLine.text : AsmLine → String
  | .lit n d => "LIT " ++ regName n ++ ", " ++ hexByte d
  | .op (.rsv1x f) => ".byte " ++ hexByte (encodeByte (.rsv1x f))
  | .op (.litData d) => ".byte " ++ hexByte d
  | .op i => match operandReg i with
    | some n => i.mnemonic ++ " " ++ regName n
    | none => i.mnemonic
  | .litEnd n => ".byte " ++ hexByte (nibbles 0x0 n)

/-! ## Source lines (R87, R88) -/

/-- A 16-bit expression `e` (R87, R88). DESIGN CHOICE, safe: the spec gives no grammar of expressions; here `e` is a number or
a single label, with no sum such as `name + 1`. Notes entry 18. -/
inductive AsmExpr where
  | num (v : Addr)
  | label (name : String)
deriving DecidableEq, Repr

/-- An 8-bit operand: a number, `hi(e)` or `lo(e)`. DESIGN CHOICE, safe: that `.byte` takes all three, as LIT does in the
expansion of SETA (R88), is the model's; `.org` takes a number only. Notes entry 18. -/
inductive AsmByte where
  | num (v : Byte)
  | hi (e : AsmExpr)
  | lo (e : AsmExpr)
deriving DecidableEq, Repr

/-- A source line: LIT, a one-byte instruction, the directives, and the seven pseudo-instructions. -/
inductive SourceLine where
  | lit (n : Reg) (d : AsmByte)
  | op (i : Instr)
  | byte (v : AsmByte)
  | org (a : Addr)
  | label (name : String)
  | seta (e : AsmExpr)
  | jmpi (e : AsmExpr)
  | calli (e : AsmExpr)
  | jnzi (n : Reg) (e : AsmExpr)
  | clr (n : Reg)
  | setlt
  | setgt
deriving DecidableEq, Repr

/-- Why the assembler refuses a source text. -/
inductive AsmError where
  /-- A label no line defines. -/
  | unknownLabel (name : String)
  /-- `JNZI r1` or `JNZI r2`: the expansion overwrites the register it tests (R88). -/
  | jnziClobbersOperand (n : Reg)
  /-- An instruction line with LIT, data or an ill-formed reserved code, which have lines of their own (R87). -/
  | notAnInstructionLine (i : Instr)
deriving DecidableEq, Repr

/-- `SETA e`: `LIT r1, hi(e)` then `LIT r2, lo(e)`. -/
def expandSeta (e : AsmExpr) : List SourceLine := [.lit 1#4 (.hi e), .lit 2#4 (.lo e)]

/-- The exact expansion of a pseudo-instruction (R88); every other line is itself. -/
def SourceLine.expand : SourceLine → Except AsmError (List SourceLine)
  | .seta e => .ok (expandSeta e)
  | .jmpi e => .ok (expandSeta e ++ [.op .jmp])
  | .calli e => .ok (expandSeta e ++ [.op .call])
  | .jnzi n e => if n = 1#4 ∨ n = 2#4 then .error (.jnziClobbersOperand n) else .ok (expandSeta e ++ [.op (.jnz n)])
  | .clr n => .ok [.lit n (.num 0x00#8)]
  | .setlt => .ok [.lit 3#4 (.num 0x00#8)]
  | .setgt => .ok [.lit 3#4 (.num 0x01#8)]
  | l => .ok [l]

/-- The expansion of a source text, line by line. -/
def expandAll : List SourceLine → Except AsmError (List SourceLine)
  | [] => .ok []
  | l :: ls => do
    let here ← l.expand
    let rest ← expandAll ls
    pure (here ++ rest)

/-- How many bytes an expanded line emits. -/
def SourceLine.size : SourceLine → Nat
  | .lit _ _ => 2
  | .op _ | .byte _ => 1
  | _ => 0

/-- The labels of an expanded text with their addresses, from the assembly address `at`. -/
def labelTable : Nat → List SourceLine → List (String × Addr)
  | _, [] => []
  | _, .org a :: ls => labelTable a.toNat ls
  | pos, .label name :: ls => (name, BitVec.ofNat 16 pos) :: labelTable pos ls
  | pos, l :: ls => labelTable (pos + l.size) ls

/-- The value of an expression. -/
def AsmExpr.eval (labels : List (String × Addr)) : AsmExpr → Except AsmError Addr
  | .num v => .ok v
  | .label name => match labels.lookup name with
    | some v => .ok v
    | none => .error (.unknownLabel name)

/-- The value of an 8-bit operand: `hi(e)` is bits 15 to 8, `lo(e)` bits 7 to 0 (R87). -/
def AsmByte.eval (labels : List (String × Addr)) : AsmByte → Except AsmError Byte
  | .num v => .ok v
  | .hi e => (e.eval labels).map highByte
  | .lo e => (e.eval labels).map lowByte

/-- The bytes an expanded line emits. -/
def SourceLine.emit (labels : List (String × Addr)) : SourceLine → Except AsmError (List Byte)
  | .lit n d => do
    let v ← d.eval labels
    pure [nibbles 0x0 n, v]
  | .op i => match i with
    | .lit _ | .litData _ | .rsv1x _ => .error (.notAnInstructionLine i)
    | _ => .ok [encodeByte i]
  | .byte v => do
    let b ← v.eval labels
    pure [b]
  | _ => .ok []

/-- The image of an expanded text: each byte with its address, in the order written. -/
def emitAll (labels : List (String × Addr)) : Nat → List SourceLine → Except AsmError (List (Addr × Byte))
  | _, [] => .ok []
  | _, .org a :: ls => emitAll labels a.toNat ls
  | pos, l :: ls => do
    let bytes ← l.emit labels
    let rest ← emitAll labels (pos + l.size) ls
    pure (bytes.zipIdx.map (fun p => (BitVec.ofNat 16 (pos + p.2), p.1)) ++ rest)

/-- The assembler: expand, place the labels, emit, from address 0 unless a line says `.org`. -/
def assemble (source : List SourceLine) : Except AsmError (List (Addr × Byte)) := do
  let lines ← expandAll source
  emitAll (labelTable 0 lines) 0 lines

end Sys2Proof.Machine
end

