-- ==== Sys2Proof/Machine/Driver.lean ====
section
/-! DEFINITION. The host interface (R34, R219): what the driver may do between two steps, the launch sequence (R243), and
what the renderer sees. The core's `step` is `Sys2Proof.Machine.step`; nothing here runs inside it (R60, R204). -/

namespace Sys2Proof.Machine

/-- `ROM_LOAD_PATH` (D14): whether the ROM goes straight into the store or through `write(i, ROM[i])`. -/
inductive RomLoadPath where
  | store
  | bus
deriving DecidableEq, Repr

/-- One call of the host (R219). -/
inductive HostCall where
  /-- Reset (R240, R242). -/
  | reset
  /-- Load a ROM image: byte i at address i, from 0 (R243). The spec gives it before the first step; that it may come
  later too is the model's choice. Notes entry 13. -/
  | loadRom (path : RomLoadPath) (rom : List Byte)
  /-- One step of the core (R100). -/
  | step
  /-- `interrupt(addr)` (R203). -/
  | interrupt (addr : Addr)
  /-- Input update: the button of Button+LED (R216). -/
  | button (pressed : Bool)
  /-- Input update: the last key of the Text display, none when idle (R217). -/
  | key (k : Option Byte)
  /-- Input update: the digital inputs of the Command/controller (R218). -/
  | inputs (levels : List Bool)
  /-- Host bus access, a read through the device. -/
  | busRead (a : Addr)
  /-- Host bus access, a write through the device. -/
  | busWrite (a : Addr) (v : Byte)
  /-- Render: reads device state and changes nothing. -/
  | render
deriving DecidableEq, Repr

/-- The ROM placed from address `base` upward (R243, D14). -/
def Bus.loadRom (path : RomLoadPath) : Bus → Nat → List Byte → Bus
  | b, _, [] => b
  | b, base, v :: rest =>
    Bus.loadRom path
      (match path with
        | .store => b.writeStore (BitVec.ofNat 16 base) v
        | .bus => b.write (BitVec.ofNat 16 base) v)
      (base + 1) rest

/-- An input update of the host; an input that the machine's device does not have changes nothing. Notes entry 15. -/
def Device.update (d : Device) (c : HostCall) : Device :=
  match d, c with
  | .buttonLed d, .button pressed => .buttonLed { d with pressed := pressed }
  | .textDisplay d, .key k => .textDisplay { d with key := k }
  | .command d, .inputs levels => .command { d with inputs := levels }
  | d, _ => d

/-- The state with the device's inputs updated (R219, D19). -/
def State.update (s : State) (c : HostCall) : State := { s with bus := { s.bus with dev := s.bus.dev.update c } }

/-- The ROM load, refused for an image longer than the address space (R243, I5). -/
def loadRom (path : RomLoadPath) (rom : List Byte) (s : State) : Host.Outcome State Fault Refusal :=
  if rom.length ≤ addressCount then .next { s with bus := Bus.loadRom path s.bus 0 rom }
  else .refused (.oversizeRom rom.length)

/-- One host call (R219). DESIGN CHOICE, unsafe: `loadRom` is taken in every state, and past the first step it has the
effect it has before it. R219 gives it only before the first step and says nothing of a later one. Notes entry 13. -/
def hostCall (c : HostCall) (s : State) : Host.Outcome State Fault Refusal :=
  match c with
  | .reset => .next s.hostReset
  | .loadRom path rom => loadRom path rom s
  | .step => step s
  | .interrupt addr => .next (s.interrupt addr)
  | .button pressed => .next (s.update (.button pressed))
  | .key k => .next (s.update (.key k))
  | .inputs levels => .next (s.update (.inputs levels))
  | .busRead a => .next (s.busRead a).2
  | .busWrite a v => .next (s.busWrite a v)
  | .render => .next s

/-- Host calls, in the order the host makes them (R206, D27). -/
def hostCalls : List HostCall → State → Host.Outcome State Fault Refusal
  | [], s => .next s
  | c :: cs, s =>
    match hostCall c s with
    | .next t => hostCalls cs t
    | .fault r => .fault r
    | .refused r => .refused r

/-- The launch of R243: the device with its state and an unset store, the ROM placed, the core in its reset state. -/
def launch (dev : Device) (path : RomLoadPath) (rom : List Byte) : Host.Outcome State Fault Refusal :=
  loadRom path rom { State.reset with bus := { store := [], dev := dev, free := 0 } }

/-- What the renderer reads of the device (R216 to R219). -/
inductive View where
  | nothing
  | led (v : Byte)
  | grid (rows : List (List Byte))
  | commands (rbuf : Vector Byte 128)
deriving DecidableEq, Repr

/-- The device state visible to the outside world. -/
def State.view (s : State) : View :=
  match s.bus.dev with
  | .ramOnly => .nothing
  | .buttonLed d => .led d.led
  | .textDisplay d => .grid d.grid
  | .command d => .commands d.rbuf

end Sys2Proof.Machine
end

