-- ==== Sys2Proof/Machine/Transactions.lean ====
section
/-! DEFINITION. The bus transactions of a step, in order: the table of R53 with the order of R54, written on its own and
not read off the meanings. -/

namespace Sys2Proof.Machine

/-- One bus transaction (R51). -/
inductive Transaction where
  | read (a : Addr)
  | write (a : Addr) (v : Byte)
deriving DecidableEq, Repr

/-- The transactions after the fetch, by the row of R53. -/
def dataTransactions (i : Instr) (s : State) : List Transaction :=
  match i with
  | .load _ => [.read s.addr16]
  | .store n => [.write s.addr16 (s.reg n)]
  | .call => [.write (s.sp - 2#16) (lowByte s.pc), .write (s.sp - 2#16 + 1#16) (highByte s.pc)]
  | .ret => [.read s.sp, .read (s.sp + 1#16)]
  | .lit _ | .litData _ | .jmp | .halt | .rsv1x _ | .jnz _ | .get _ | .put _ | .cmpeq _ | .cmpgl _
  | .add _ | .sub _ | .shl _ | .shr _ | .or _ | .and _ | .not _ => []

/-- All transactions of the next step: the fetch first, always (R54). -/
def stepTransactions (s : State) : List Transaction :=
  .read s.pc :: dataTransactions (decodeByte s.latch.armed s.fetch.1) s

/-- The bus after one transaction. -/
def Bus.perform (b : Bus) : Transaction → Bus
  | .read a => (b.read a).2
  | .write a v => b.write a v

/-- The bus after transactions in the order issued (R66). -/
def Bus.replay (b : Bus) (l : List Transaction) : Bus := l.foldl Bus.perform b

end Sys2Proof.Machine
end

