-- ==== Sys2Proof/Safety.lean ====
section
/-! DEFINITION. The terms the claims use: frames, the invariant of the machine, halted states, the parameters of a device. -/

namespace Sys2Proof.Machine

/-! ## Frames -/

/-- `pc` has moved on by one, modulo 65536 (R30, R101). -/
def PcAdvanced (s t : State) : Prop := t.pc.toNat = (s.pc.toNat + 1) % 65536

/-- Every register but the listed ones holds what it held. -/
def RegsKeptBut (ds : List Reg) (s t : State) : Prop := ∀ r, r ∉ ds → t.reg r = s.reg r

/-- The bus is as it was: the store, the device's state, and so the byte that a read of any address returns. -/
def BusKept (s t : State) : Prop := t.bus = s.bus ∧ ∀ a, t.peek a = s.peek a

/-- The stack pointer and the latch are as they were. -/
def SpLatchKept (s t : State) : Prop := t.sp = s.sp ∧ t.latch = s.latch

/-- Only `pc` and the listed registers may differ. -/
def OnlyRegs (ds : List Reg) (s t : State) : Prop := RegsKeptBut ds s t ∧ SpLatchKept s t ∧ BusKept s t

/-- Nothing differs but a device input that is read at the address `a` (R219): the core, the store, the free values and what
every other address reads are as they were. -/
def OnlyInputAt (a : Addr) (s t : State) : Prop :=
  RegsKeptBut [] s t ∧ t.pc = s.pc ∧ SpLatchKept s t ∧ t.bus.store = s.bus.store ∧ t.bus.free = s.bus.free ∧
  ∀ c, c ≠ a → t.peek c = s.peek c

/-- With the latch disarmed, the 16 bytes of opcode nibble `op` decode to `i 0` to `i 15` (R80, R81 format R). -/
def EncodedAs (op : Nat) (i : Reg → Instr) : Prop := ∀ n : Reg, decodeByte false (BitVec.ofNat 8 (op * 16 + n.toNat)) = i n

/-! ## The device's fixed part -/

/-- The two devices are the same variant with the same parameters: only device state may differ. -/
def Device.SameParams : Device → Device → Prop
  | .ramOnly, .ramOnly => True
  | .buttonLed d, .buttonLed e =>
    d.pressedByte = e.pressedByte ∧ d.releasedByte = e.releasedByte ∧ d.buttonStores = e.buttonStores
  | .textDisplay d, .textDisplay e => d.params = e.params
  | .command d, .command e => d.params = e.params
  | _, _ => False

/-! ## The invariant -/

/-- The grid has `TD_ROWS` rows of `TD_COLS` cells (R217). -/
def TextDisplay.GridWf (d : TextDisplay) : Prop :=
  d.grid.length = d.params.rows ∧ ∀ row ∈ d.grid, row.length = d.params.cols

/-- The special addresses of the Text display are distinct. -/
def TextParams.Distinct (p : TextParams) : Prop :=
  (p.keyAddr :: p.variant.writeOnly.map (fun w => w.addr)).Nodup

/-- `CMD_TRIGGER_ADDR` and `CMD_INPUT_ADDR` lie outside the window and differ (R218, D22). -/
def CommandParams.Distinct (p : CommandParams) : Prop :=
  128 ≤ p.trigger.addr.toNat ∧ 128 ≤ p.inputAddr.toNat ∧ p.trigger.addr ≠ p.inputAddr

/-- A device whose parameters make sense and whose grid has its size. -/
def Device.Wf : Device → Prop
  | .ramOnly => True
  | .buttonLed _ => True
  | .textDisplay d => d.params.Distinct ∧ d.GridWf
  | .command d => d.params.Distinct

/-- The invariant of the machine: the store is in canonical form within the address space, and the device is well formed. -/
def State.Inv (s : State) : Prop := Memory.wf s.bus.store ∧ s.bus.dev.Wf

/-! ## Halted states -/

/-- A read of the address has no side effect on this device, whatever the device's state: not the consumed key of R217, and
not a read-back that is a fresh value each time (R62). -/
def Device.ReadQuiet (d : Device) (a : Addr) : Prop := ∀ b : Bus, d.SameParams b.dev → (b.read a).2 = b

/-- R245, the clauses on the state: the latch is disarmed and the byte at `pc` is 0x13 at an address whose read has no side
effect. -/
def State.Halted (s : State) : Prop :=
  s.latch.armed = false ∧ s.bus.dev.ReadQuiet s.pc ∧ s.peek s.pc = 0x13#8

/-- R245: none of these host actions, made from `s` in order, changes the byte that a read of the address returns. -/
def NoneChanges (a : Addr) : List HostCall → State → Prop
  | [], _ => True
  | c :: cs, s => ∀ t : State, hostCall c s = .next t → t.peek a = s.peek a ∧ NoneChanges a cs t

/-- R245, whole: the run is halted at `s`, where `future` is all that the host does from then on. Notes entry 19. -/
def State.HaltedRun (s : State) (future : List HostCall) : Prop := s.Halted ∧ NoneChanges s.pc future s

/-- The two host actions that take a core out of its halt loop without changing the byte at `pc` (R213). -/
def HostCall.movesCore : HostCall → Bool
  | .interrupt _ | .reset => true
  | .loadRom _ _ | .step | .button _ | .key _ | .inputs _ | .busRead _ | .busWrite _ _ | .render => false

/-! ## Assembly lines -/

/-- A line the disassembler prints for bytes that start at an instruction and end after one: a LIT with its data byte, or
a one-byte row of R85. -/
def AsmLine.Plain : AsmLine → Prop
  | .lit _ _ => True
  | .op i => i.wf = true ∧ i.isData = false ∧ ∀ n, i ≠ .lit n
  | .litEnd _ => False

end Sys2Proof.Machine
end

