-- ==== Sys2Proof/Certificates/Slice0/Obligations.lean ====
section
/-! DEFINITION. The statements for the provers, from the numbered rules of spec/. -/

open Sys2Proof Sys2Proof.Machine

/-! ## Encoding (30_encoding.md) -/

/-- R80 to R85: what is encoded decodes back, with every operand at every value, and the rest of the stream is left. -/
def Obligations.DecodeOfEncode : Prop :=
  ∀ (i : Instr) (rest : List Byte), i.wf = true → decode i.isData (encode i ++ rest) = .ok (i, rest)

/-- R82, R85: decode is total; what it answers is well formed, is data exactly with the latch armed, and encodes back. -/
def Obligations.DecodeTotalAndInvertible : Prop :=
  ∀ (armed : Bool) (b : Byte), (decodeByte armed b).wf = true ∧ (decodeByte armed b).isData = armed ∧
    encodeByte (decodeByte armed b) = b

/-- R85: every byte value is in exactly one row of the opcode map, and it is the row of the decoded instruction. -/
def Obligations.OpcodeMapPartitionsBytes : Prop :=
  ∀ b : Byte, (opcodeMap.filter fun r => r.covers b).map (fun r => r.mnemonic) = [(decodeByte false b).mnemonic]

/-- Words written out bit by bit from the encodings of the rules, one or more of each family. -/
def Obligations.WordsOfTheRulesDecode : Prop :=
  decodeByte false 0b00000101 = .lit 5 ∧ decodeByte true 0b00010010 = .litData 0x12 ∧
  decodeByte false 0b00010001 = .call ∧ decodeByte false 0b00010010 = .ret ∧ decodeByte false 0b00011111 = .rsv1x 15 ∧
  decodeByte false 0b00100011 = .jnz 3 ∧ decodeByte false 0b00110111 = .get 7 ∧ decodeByte false 0b01100001 = .store 1 ∧
  decodeByte false 0b10000100 = .cmpgl 4 ∧ decodeByte false 0b10010011 = .add 3 ∧ decodeByte false 0b11110101 = .not 5

/-! ## The step (40_step_and_literal.md) -/

/-- R100, R82: a step is one fetch at `pc` through the bus, then the meaning of the decoded instruction on the state the
fetch leaves; that state has the same registers, `pc`, `sp`, latch and store, and is the state itself off the special set. -/
def Obligations.StepRunsTheDecodedInstruction : Prop :=
  ∀ (s : State) (i : Instr), decodeByte s.latch.armed (s.peek s.pc) = i →
    step s = exec i s.fetch.2 ∧ (∀ n, s.fetch.2.reg n = s.reg n) ∧ s.fetch.2.pc = s.pc ∧ s.fetch.2.sp = s.sp ∧
    s.fetch.2.latch = s.latch ∧ s.fetch.2.bus = (s.bus.read s.pc).2 ∧ s.fetch.2.bus.store = s.bus.store ∧
    (s.bus.dev.special s.pc = false → step s = exec i s)

/-- R103: a step never fails: it always answers a next state, and the transactions it makes are one fetch at `pc` and, after
it, at most two more: those of the decoded instruction's row of R53, which leave the bus that the step leaves. The order of
RET's two reads among them, and that `sp + 1` wraps, are the spec's own decisions D9 and D8 (log entry 3). -/
def Obligations.StepNeverFails : Prop :=
  ∀ s : State, ∃ t : State, step s = .next t ∧ t.bus = s.bus.replay (stepTransactions s) ∧
    stepTransactions s = .read s.pc :: dataTransactions (decodeByte s.latch.armed (s.peek s.pc)) s ∧
    (dataTransactions (decodeByte s.latch.armed (s.peek s.pc)) s).length ≤ 2

/-- R53, R54: the bus a step leaves is the one that the transactions of the table of R53 leave, in the order of R54. In that
order, RET's read of `sp` before `sp + 1` is the spec's own decision D9, and that `sp + 1` wraps its D8 (log entry 3). -/
def Obligations.StepPerformsItsTransactions : Prop :=
  ∀ s : State, ∃ t : State, step s = .next t ∧ t.bus = s.bus.replay (stepTransactions s)

/-- R101: the final `pc` of every instruction; R102: the `target - 1` mechanism and the direct targets agree. HALT's unchanged
`pc`, the advance of the reserved codes, and RET's read order and wrapping `sp + 1` are the spec's own decisions D5, D6, D9 and
D8 (log entry 3). -/
def Obligations.FinalPcOfEveryInstruction : Prop :=
  ∀ (i : Instr) (s : State), ∃ t : State, exec i s = .next t ∧
    t.pc.toNat =
      match i with
      | .jmp | .call => (s.reg 1#4).toNat * 256 + (s.reg 2#4).toNat
      | .jnz n => if s.reg n = 0#8 then (s.pc.toNat + 1) % 65536 else (s.reg 1#4).toNat * 256 + (s.reg 2#4).toNat
      | .ret => (((s.bus.read s.sp).2.read (s.sp + 1#16)).1.toNat * 256 + (s.bus.read s.sp).1.toNat + 1) % 65536
      | .halt => s.pc.toNat
      | .lit _ | .litData _ | .rsv1x _ | .get _ | .put _ | .load _ | .store _ | .cmpeq _ | .cmpgl _ | .add _ | .sub _
      | .shl _ | .shr _ | .or _ | .and _ | .not _ => (s.pc.toNat + 1) % 65536

/-- R105: LIT arms the latch with its target and writes no register. -/
def Obligations.LitArmsTheLatch : Prop :=
  EncodedAs 0x0 .lit ∧
  ∀ (n : Reg) (s : State), ∃ t : State, exec (.lit n) s = .next t ∧ t.latch = { armed := true, target := n } ∧
    PcAdvanced s t ∧ RegsKeptBut [] s t ∧ t.sp = s.sp ∧ BusKept s t

/-- R106: the literal-data step stores the byte verbatim into the target, whatever its bits are, and disarms the latch. -/
def Obligations.LiteralDataIsStoredVerbatim : Prop :=
  (∀ b : Byte, decodeByte true b = .litData b) ∧
  ∀ (d : Byte) (s : State), ∃ t : State, exec (.litData d) s = .next t ∧ t.reg s.latch.target = d ∧
    t.latch = { armed := false, target := s.latch.target } ∧ PcAdvanced s t ∧ RegsKeptBut [s.latch.target] s t ∧
    t.sp = s.sp ∧ BusKept s t

/-- R107: with the latch disarmed, the bytes 0x0n and V at plain addresses `pc` and `pc + 1` leave V in register n after
two steps, for every V, and `pc` two further on. -/
def Obligations.LiteralRoundTrip : Prop :=
  ∀ (s : State) (n : Reg) (v : Byte), s.latch.armed = false → s.bus.dev.special s.pc = false →
    s.bus.dev.special (s.pc + 1#16) = false → s.peek s.pc = BitVec.ofNat 8 n.toNat → s.peek (s.pc + 1#16) = v →
    ∃ t u : State, step s = .next t ∧ step t = .next u ∧ u.reg n = v ∧ RegsKeptBut [n] s u ∧
      u.latch.armed = false ∧ u.pc.toNat = (s.pc.toNat + 2) % 65536 ∧ u.sp = s.sp ∧ BusKept s u

/-- R109 with R105 and R106: after a step the latch is armed exactly if it was disarmed and the fetched byte was a LIT. -/
def Obligations.LatchAfterAStep : Prop :=
  ∀ s t : State, step s = .next t →
    (t.latch.armed = true ↔ s.latch.armed = false ∧ (s.peek s.pc).toNat < 16) ∧
    (t.latch.armed = true → t.latch.target.toNat = (s.peek s.pc).toNat) ∧
    (t.latch.armed = false → t.latch.target = s.latch.target)

/-! ## Control transfer (41_control.md) -/

/-- R21: `addr16 = x[1] * 256 + x[2]`. -/
def Obligations.AddressPairValue : Prop :=
  ∀ s : State, s.addr16.toNat = (s.reg 1#4).toNat * 256 + (s.reg 2#4).toNat

/-- R120: JMP goes to `addr16` and changes nothing else. -/
def Obligations.JmpGoesToTheAddressPair : Prop :=
  decodeByte false 0x10 = .jmp ∧
  ∀ s : State, ∃ t : State, exec .jmp s = .next t ∧ t.pc.toNat = (s.reg 1#4).toNat * 256 + (s.reg 2#4).toNat ∧
    OnlyRegs [] s t

/-- R121: CALL pushes the address of its own byte, low byte first, and goes to `addr16`. At plain stack addresses the two
bytes are there afterwards and every other address reads as before. That the second stack address wraps, from 0xFFFF to
0x0000 for `sp` = 0x0001, is the spec's own decision D8 (R58, log entry 3). -/
def Obligations.CallPushesItsOwnAddress : Prop :=
  decodeByte false 0x11 = .call ∧
  ∀ s : State, ∃ t : State, exec .call s = .next t ∧ t.pc.toNat = (s.reg 1#4).toNat * 256 + (s.reg 2#4).toNat ∧
    t.sp.toNat = (s.sp.toNat + 65534) % 65536 ∧ RegsKeptBut [] s t ∧ t.latch = s.latch ∧
    t.bus = (s.bus.write (s.sp - 2#16) (BitVec.ofNat 8 (s.pc.toNat % 256))).write (s.sp - 2#16 + 1#16)
      (BitVec.ofNat 8 (s.pc.toNat / 256)) ∧
    (s.bus.dev.special (s.sp - 2#16) = false → s.bus.dev.special (s.sp - 2#16 + 1#16) = false →
      (t.peek (s.sp - 2#16)).toNat = s.pc.toNat % 256 ∧ (t.peek (s.sp - 2#16 + 1#16)).toNat = s.pc.toNat / 256 ∧
      t.bus.dev = s.bus.dev ∧ ∀ a, a ≠ s.sp - 2#16 → a ≠ s.sp - 2#16 + 1#16 → t.peek a = s.peek a)

/-- R122: RET pops the low byte at `sp`, then the high byte at `sp + 1`, and goes to the popped value plus 1. At plain stack
addresses nothing of the bus changes. The order of the two reads is the spec's own decision D9, and that the second address
wraps its D8 (R58, log entry 3). -/
def Obligations.RetPopsAndAddsOne : Prop :=
  decodeByte false 0x12 = .ret ∧
  ∀ s : State, ∃ t : State, exec .ret s = .next t ∧
    t.pc.toNat = (((s.bus.read s.sp).2.read (s.sp + 1#16)).1.toNat * 256 + (s.peek s.sp).toNat + 1) % 65536 ∧
    t.sp.toNat = (s.sp.toNat + 2) % 65536 ∧ RegsKeptBut [] s t ∧ t.latch = s.latch ∧
    t.bus = ((s.bus.read s.sp).2.read (s.sp + 1#16)).2 ∧ t.bus.store = s.bus.store ∧
    (s.bus.dev.special s.sp = false → s.bus.dev.special (s.sp + 1#16) = false →
      t.pc.toNat = ((s.peek (s.sp + 1#16)).toNat * 256 + (s.peek s.sp).toNat + 1) % 65536 ∧ BusKept s t)

/-- R121 with R122 (example S5): at plain stack addresses, a RET with the stack pointer and the bus a CALL left returns to
the byte after the CALL, with the stack pointer the CALL found. Both push and pop with the wrapping second address of the
spec's own decision D8 (R58, log entry 3). -/
def Obligations.CallThenRetReturns : Prop :=
  ∀ s : State, s.bus.dev.special (s.sp - 2#16) = false → s.bus.dev.special (s.sp - 2#16 + 1#16) = false →
    ∃ t : State, exec .call s = .next t ∧ ∀ u : State, u.sp = t.sp → u.bus = t.bus →
      ∃ v : State, exec .ret u = .next v ∧ v.pc.toNat = (s.pc.toNat + 1) % 65536 ∧ v.sp = s.sp ∧ v.bus = t.bus

/-- R123: byte 0x13 leaves the whole state as it found it, `pc` included: `HALT13_ADVANCES` = false is the spec's own
decision D5 (log entry 3). -/
def Obligations.HaltChangesNothing : Prop :=
  decodeByte false 0x13 = .halt ∧ ∀ s : State, exec .halt s = .next s

/-- R245, with the spec's own decisions D25 and D5 (log entries 3 and 19): a machine in a halted state stays as it is for any
number of steps; and where the host's further actions do not change the byte at `pc`, and are no interrupt or reset (R213),
every step among them leaves the state unchanged, and the core stays at that `pc`, halted. That the actions may hold a ROM load
past the first step, and updates of inputs the device lacks, is the model's choice (log entries 13 and 15). -/
def Obligations.HaltedMachineStaysPut : Prop :=
  (∀ (s : State) (k : Nat), s.Halted → Sys2Proof.core.run k s = .next s) ∧
  ∀ (s : State) (future : List HostCall), s.HaltedRun future → (∀ c ∈ future, c.movesCore = false) →
    ∀ (cs ds : List HostCall) (t : State), future = cs ++ ds → hostCalls cs s = .next t →
      step t = .next t ∧ t.Halted ∧ t.pc = s.pc ∧ RegsKeptBut [] s t ∧ SpLatchKept s t

/-- R124: the bytes 0x14 to 0x1F only advance `pc`: `RESERVED_1X` = nop is the spec's own decision D6 (log entry 3). -/
def Obligations.ReservedCodesOnlyAdvance : Prop :=
  (∀ f : Reg, 4 ≤ f.toNat → decodeByte false (BitVec.ofNat 8 (0x10 + f.toNat)) = .rsv1x f) ∧
  ∀ (f : Reg) (s : State), ∃ t : State, exec (.rsv1x f) s = .next t ∧ PcAdvanced s t ∧ OnlyRegs [] s t

/-- R125: JNZ goes to `addr16` if register n is nonzero and to the next byte if it is zero. -/
def Obligations.JnzBranchesOnNonzero : Prop :=
  EncodedAs 0x2 .jnz ∧
  ∀ (n : Reg) (s : State), ∃ t : State, exec (.jnz n) s = .next t ∧ OnlyRegs [] s t ∧
    ((s.reg n).toNat ≠ 0 → t.pc.toNat = (s.reg 1#4).toNat * 256 + (s.reg 2#4).toNat) ∧
    ((s.reg n).toNat = 0 → PcAdvanced s t)

/-! ## Moves, LOAD and STORE (42_move_memory.md) -/

/-- R140: GET copies register n into the accumulator. -/
def Obligations.GetCopiesToAccumulator : Prop :=
  EncodedAs 0x3 .get ∧
  ∀ (n : Reg) (s : State), ∃ t : State, exec (.get n) s = .next t ∧ t.reg 0#4 = s.reg n ∧ PcAdvanced s t ∧ OnlyRegs [0#4] s t

/-- R141: PUT copies the accumulator into register n, all eight bits of the status register included for n = 3. -/
def Obligations.PutCopiesFromAccumulator : Prop :=
  EncodedAs 0x4 .put ∧
  ∀ (n : Reg) (s : State), ∃ t : State, exec (.put n) s = .next t ∧ t.reg n = s.reg 0#4 ∧ PcAdvanced s t ∧ OnlyRegs [n] s t

/-- R142: LOAD reads the bus at `addr16`, taken before the write, into register n; it stores nothing, and at a plain
address nothing of the bus changes. -/
def Obligations.LoadReadsAtTheAddressPair : Prop :=
  EncodedAs 0x5 .load ∧
  ∀ (n : Reg) (s : State), ∃ t : State, exec (.load n) s = .next t ∧ t.reg n = s.peek s.addr16 ∧ PcAdvanced s t ∧
    RegsKeptBut [n] s t ∧ SpLatchKept s t ∧ t.bus = (s.bus.read s.addr16).2 ∧ t.bus.store = s.bus.store ∧
    (∀ a, s.bus.dev.special a = false → t.peek a = s.peek a) ∧ (s.bus.dev.special s.addr16 = false → BusKept s t)

/-- R143: STORE writes register n to the bus at `addr16` and changes no register; at a plain address that byte reads back
and every other address reads as before. -/
def Obligations.StoreWritesAtTheAddressPair : Prop :=
  EncodedAs 0x6 .store ∧
  ∀ (n : Reg) (s : State), ∃ t : State, exec (.store n) s = .next t ∧ PcAdvanced s t ∧ RegsKeptBut [] s t ∧
    SpLatchKept s t ∧ t.bus = s.bus.write s.addr16 (s.reg n) ∧
    (s.bus.dev.special s.addr16 = false →
      t.peek s.addr16 = s.reg n ∧ t.bus.dev = s.bus.dev ∧ ∀ a, a ≠ s.addr16 → t.peek a = s.peek a)

/-- R69, R248: a byte stored at the plain address `pc + 1` is the byte the very next step fetches and runs. -/
def Obligations.StoredByteIsFetchedNext : Prop :=
  ∀ (n : Reg) (s : State), s.addr16 = s.pc + 1#16 → s.bus.dev.special (s.pc + 1#16) = false →
    ∃ t : State, exec (.store n) s = .next t ∧ t.fetch = (s.reg n, t) ∧
      step t = exec (decodeByte s.latch.armed (s.reg n)) t

/-! ## Compare (43_compare.md) -/

/-- R160: CMPEQ leaves 1 or 0 in the accumulator and no flag changed. -/
def Obligations.CmpeqGivesOneOrZero : Prop :=
  EncodedAs 0x7 .cmpeq ∧
  ∀ (n : Reg) (s : State), ∃ t : State, exec (.cmpeq n) s = .next t ∧ PcAdvanced s t ∧ OnlyRegs [0#4] s t ∧
    (s.reg 0#4 = s.reg n → t.reg 0#4 = 0x01#8) ∧ (s.reg 0#4 ≠ s.reg n → t.reg 0#4 = 0x00#8)

/-- R161: CMPGL leaves 0xFF or 0x00, greater-than with DIR set and less-than with DIR clear; the unsigned reading is the
spec's own decision D3. -/
def Obligations.CmpglComparesByDirection : Prop :=
  EncodedAs 0x8 .cmpgl ∧
  ∀ (n : Reg) (s : State), ∃ t : State, exec (.cmpgl n) s = .next t ∧ PcAdvanced s t ∧ OnlyRegs [0#4] s t ∧
    (t.reg 0#4 = 0xFF#8 ∨ t.reg 0#4 = 0x00#8) ∧
    ((s.reg 3#4).getLsbD 0 = true → (t.reg 0#4 = 0xFF#8 ↔ (s.reg n).toNat < (s.reg 0#4).toNat)) ∧
    ((s.reg 3#4).getLsbD 0 = false → (t.reg 0#4 = 0xFF#8 ↔ (s.reg 0#4).toNat < (s.reg n).toNat))

/-- R162: the derived comparisons. CMPGL with DIR = 0 then NOT r0 is `a >= b`, with DIR = 1 it is `a <= b`; SUB leaves a
nonzero accumulator exactly when `a` and `b` differ; CMPEQ leaves a nonzero one exactly when they are equal. -/
def Obligations.DerivedComparisons : Prop :=
  ∀ (n : Reg) (s : State),
    (∃ t u : State, exec (.cmpgl n) s = .next t ∧ exec (.not 0#4) t = .next u ∧
      ((s.reg 3#4).getLsbD 0 = false → u.reg 0#4 = if (s.reg n).toNat ≤ (s.reg 0#4).toNat then 0xFF#8 else 0x00#8) ∧
      ((s.reg 3#4).getLsbD 0 = true → u.reg 0#4 = if (s.reg 0#4).toNat ≤ (s.reg n).toNat then 0xFF#8 else 0x00#8)) ∧
    (∃ t : State, exec (.sub n) s = .next t ∧ (t.reg 0#4 ≠ 0#8 ↔ s.reg 0#4 ≠ s.reg n)) ∧
    (∃ t : State, exec (.cmpeq n) s = .next t ∧ (t.reg 0#4 ≠ 0#8 ↔ s.reg 0#4 = s.reg n))

/-! ## Arithmetic and logic (44_alu.md) -/

/-- R171: ADD wraps, OV is the carry out of bit 7, every other status bit is kept. -/
def Obligations.AddWrapsAndSetsOverflow : Prop :=
  EncodedAs 0x9 .add ∧
  ∀ (n : Reg) (s : State), ∃ t : State, exec (.add n) s = .next t ∧ PcAdvanced s t ∧ OnlyRegs [0#4, 3#4] s t ∧
    (t.reg 0#4).toNat = ((s.reg 0#4).toNat + (s.reg n).toNat) % 256 ∧
    ((t.reg 3#4).getLsbD 1 = true ↔ (s.reg 0#4).toNat + (s.reg n).toNat > 255) ∧
    ∀ k, k ≠ 1 → (t.reg 3#4).getLsbD k = (s.reg 3#4).getLsbD k

/-- R172: SUB wraps, UF is the borrow, every other status bit is kept. -/
def Obligations.SubWrapsAndSetsUnderflow : Prop :=
  EncodedAs 0xA .sub ∧
  ∀ (n : Reg) (s : State), ∃ t : State, exec (.sub n) s = .next t ∧ PcAdvanced s t ∧ OnlyRegs [0#4, 3#4] s t ∧
    ((t.reg 0#4).toNat : Int) = ((s.reg 0#4).toNat - (s.reg n).toNat : Int) % 256 ∧
    ((t.reg 3#4).getLsbD 2 = true ↔ (s.reg 0#4).toNat < (s.reg n).toNat) ∧
    ∀ k, k ≠ 2 → (t.reg 3#4).getLsbD k = (s.reg 3#4).getLsbD k

/-- R173: SHL by less than 8 keeps the low 8 bits of the product; by 8 or more it gives one of the two results of
`SHIFT_OVERSIZE`, whichever the parameter is (D7, log entry 2). -/
def Obligations.ShlShiftsLeft : Prop :=
  EncodedAs 0xB .shl ∧
  ∀ (n : Reg) (s : State), ∃ t : State, exec (.shl n) s = .next t ∧ PcAdvanced s t ∧ OnlyRegs [0#4] s t ∧
    ((s.reg n).toNat < 8 → (t.reg 0#4).toNat = (s.reg 0#4).toNat * 2 ^ (s.reg n).toNat % 256) ∧
    (8 ≤ (s.reg n).toNat → (t.reg 0#4).toNat =
      match Config.shiftOversize with
      | .zero => 0
      | .mod8 => (s.reg 0#4).toNat * 2 ^ ((s.reg n).toNat % 8) % 256)

/-- R174: SHR by less than 8 is the integer quotient, zeros shifted in (logical: the spec's own decision D3); by 8 or more it
gives one of the two results of `SHIFT_OVERSIZE` (D7, log entry 2). -/
def Obligations.ShrShiftsRight : Prop :=
  EncodedAs 0xC .shr ∧
  ∀ (n : Reg) (s : State), ∃ t : State, exec (.shr n) s = .next t ∧ PcAdvanced s t ∧ OnlyRegs [0#4] s t ∧
    ((s.reg n).toNat < 8 → (t.reg 0#4).toNat = (s.reg 0#4).toNat / 2 ^ (s.reg n).toNat) ∧
    (8 ≤ (s.reg n).toNat → (t.reg 0#4).toNat =
      match Config.shiftOversize with
      | .zero => 0
      | .mod8 => (s.reg 0#4).toNat / 2 ^ ((s.reg n).toNat % 8))

/-- R175: OR is bitwise, into the accumulator, no flag changed. -/
def Obligations.OrIsBitwise : Prop :=
  EncodedAs 0xD .or ∧
  ∀ (n : Reg) (s : State), ∃ t : State, exec (.or n) s = .next t ∧ PcAdvanced s t ∧ OnlyRegs [0#4] s t ∧
    ∀ k, (t.reg 0#4).getLsbD k = ((s.reg 0#4).getLsbD k || (s.reg n).getLsbD k)

/-- R176: AND is bitwise, into the accumulator, no flag changed. -/
def Obligations.AndIsBitwise : Prop :=
  EncodedAs 0xE .and ∧
  ∀ (n : Reg) (s : State), ∃ t : State, exec (.and n) s = .next t ∧ PcAdvanced s t ∧ OnlyRegs [0#4] s t ∧
    ∀ k, (t.reg 0#4).getLsbD k = ((s.reg 0#4).getLsbD k && (s.reg n).getLsbD k)

/-- R177: NOT inverts every bit of register n into the accumulator; the bitwise reading is the spec's own decision D4. -/
def Obligations.NotInvertsEveryBit : Prop :=
  EncodedAs 0xF .not ∧
  ∀ (n : Reg) (s : State), ∃ t : State, exec (.not n) s = .next t ∧ PcAdvanced s t ∧ OnlyRegs [0#4] s t ∧
    ∀ k, k < 8 → (t.reg 0#4).getLsbD k = !(s.reg n).getLsbD k

/-! ## Whole-machine rules -/

/-- R25: which registers each instruction may write; all others are unchanged. -/
def Obligations.RegisterWriters : Prop :=
  ∀ (i : Instr) (s : State), ∃ t : State, exec i s = .next t ∧
    RegsKeptBut
      (match i with
      | .litData _ => [s.latch.target]
      | .put n | .load n => [n]
      | .get _ | .cmpeq _ | .cmpgl _ | .shl _ | .shr _ | .or _ | .and _ | .not _ => [0#4]
      | .add _ | .sub _ => [0#4, 3#4]
      | .lit _ | .jmp | .call | .ret | .halt | .rsv1x _ | .jnz _ | .store _ => [])
      s t

/-- R27, R28, R179: no instruction but a whole-register write of x[3] changes DIR or bits 3 to 7; besides such a write only
ADD changes OV and only SUB changes UF. That bits 3 to 7 are storage is the spec's own decision D2 (log entry 3). -/
def Obligations.StatusBitWriters : Prop :=
  ∀ (i : Instr) (s t : State), exec i s = .next t → i ≠ .put 3#4 → i ≠ .load 3#4 →
    (i.isData = true → s.latch.target ≠ 3#4) →
    ((∀ n, i ≠ .add n) → (t.reg 3#4).getLsbD 1 = (s.reg 3#4).getLsbD 1) ∧
    ((∀ n, i ≠ .sub n) → (t.reg 3#4).getLsbD 2 = (s.reg 3#4).getLsbD 2) ∧
    ∀ k, k ≠ 1 → k ≠ 2 → (t.reg 3#4).getLsbD k = (s.reg 3#4).getLsbD k

/-- R31: only CALL and RET change the stack pointer, by 2, wrapping. -/
def Obligations.StackPointerWriters : Prop :=
  ∀ (i : Instr) (s : State), ∃ t : State, exec i s = .next t ∧
    t.sp.toNat =
      if i = .call then (s.sp.toNat + 65534) % 65536
      else if i = .ret then (s.sp.toNat + 2) % 65536
      else s.sp.toNat

/-- R53, R63: only STORE and CALL can change the store behind the device, and in it only the bytes at the addresses they
write. That CALL's second address wraps is the spec's own decision D8 (R58, log entry 3). -/
def Obligations.StoreWriters : Prop :=
  ∀ (i : Instr) (s t : State), exec i s = .next t →
    ∀ a : Addr, ((∃ n, i = .store n) → a ≠ s.addr16) → (i = .call → a ≠ s.sp - 2#16 ∧ a ≠ s.sp - 2#16 + 1#16) →
      Memory.read t.bus.store a = Memory.read s.bus.store a

/-! ## Memory and the multiplexer (20_memory.md) -/

/-- R61: on every device, at an address outside its special set a read returns the store byte and a write sets it; neither
changes anything else. -/
def Obligations.PlainAddressIsTheStore : Prop :=
  ∀ (b : Bus) (a : Addr) (v : Byte), b.dev.special a = false →
    b.read a = (Memory.read b.store a, b) ∧ ((b.write a v).read a).1 = v ∧ (b.write a v).dev = b.dev ∧
    ∀ c, c ≠ a → ((b.write a v).read c).1 = (b.read c).1 ∧ Memory.read (b.write a v).store c = Memory.read b.store c

/-- R216: the Button+LED device, with the spec's own decisions of D20: a read of address 0 is `store[0]`, a write to it sets
the LED byte and `store[0]` together, and a write to address 1 changes no later read of it. -/
def Obligations.ButtonLedTable : Prop :=
  ∀ (b : Bus) (d : ButtonLed) (v : Byte), b.dev = .buttonLed d →
    (b.read 0#16).1 = Memory.read b.store 0#16 ∧ (b.read 0#16).2 = b ∧
    (b.write 0#16 v).dev = .buttonLed { d with led := v } ∧ Memory.read (b.write 0#16 v).store 0#16 = v ∧
    ((b.write 0#16 v).read 0#16).1 = v ∧
    (b.read 1#16).1 = (if d.pressed = true then d.pressedByte else d.releasedByte) ∧ (b.read 1#16).2 = b ∧
    ((b.write 1#16 v).read 1#16).1 = (b.read 1#16).1 ∧ (b.write 1#16 v).dev = b.dev ∧
    ∀ a, a ≠ 0#16 → a ≠ 1#16 → (b.read a).1 = Memory.read b.store a ∧ ((b.write a v).read a).1 = v

/-- R218, example S7: on the Command/controller device, all 128 command bytes written to the window and then the trigger
written (any value) are what the window reads; a second swap restores the buffers from before the first. The window's two
buffers are the decision D22 of the spec. Where the input address is the trigger's, that the trigger answers is the model's choice
(log entry 6). -/
def Obligations.CommandBuffersSwap : Prop :=
  ∀ (b : Bus) (d : Command) (f : Vector Byte 128) (v w : Byte), b.dev = .command d → 128 ≤ d.params.trigger.addr.toNat →
    let filled := (List.finRange 128).foldl (fun c i => c.write (BitVec.ofNat 16 i.val) f[i]) b
    let once := filled.write d.params.trigger.addr v
    let twice := once.write d.params.trigger.addr w
    (∀ i : Fin 128, (filled.read (BitVec.ofNat 16 i.val)).1 = d.rbuf[i]) ∧
    (∀ i : Fin 128, (once.read (BitVec.ofNat 16 i.val)).1 = f[i]) ∧
    twice.dev = filled.dev ∧ twice.dev = .command { d with wbuf := f }

/-- R217: on the row-select Text display, a write to the trigger copies the RAM slice into the row that the written value
selects and leaves the other rows; a write to any other address leaves the device alone. That a trigger write which also goes
to the store goes there first is the model's choice (log entry 9), and what selects a row is its parameter (log entry 8). That
the addresses of a slice across 0xFFFF wrap is the model's own deduction from R58 (DEDUCED, unsafe: log entry 8). Values outside
the table and rows outside the grid are left out. -/
def Obligations.RowSelectTakesASnapshot : Prop :=
  ∀ (b : Bus) (d : TextDisplay) (row : WriteOnly) (base : Addr) (rowOf : List (Byte × Nat)) (v : Byte) (r : Nat),
    b.dev = .textDisplay d → d.params.variant = .rowSelect row base rowOf → row.addr ≠ d.params.keyAddr →
    rowOf.lookup v = some r → r < d.grid.length →
    (∃ e : TextDisplay, (b.write row.addr v).dev = .textDisplay e ∧ e.params = d.params ∧ e.key = d.key ∧
      e.grid.length = d.grid.length ∧
      (∃ cells : List Byte, e.grid[r]? = some cells ∧ cells.length = d.params.cols ∧
        ∀ k, k < d.params.cols → cells[k]? = some (Memory.read (b.write row.addr v).store (base + BitVec.ofNat 16 k))) ∧
      ∀ q, q ≠ r → e.grid[q]? = d.grid[q]?) ∧
    ∀ a w, a ≠ row.addr → (b.write a w).dev = b.dev

/-- R217: on the cell-addressed Text display with its special addresses distinct, a write to the character, cursor-x or
cursor-y address latches its byte and then, if that write is a trigger, sets the one cell under the cursor to the current
character; every other cell, and each cell if it is no trigger, is unchanged. Which writes are triggers, that the byte is
latched first, that cursor-x and cursor-y count from 0, and that a cursor outside the grid changes no cell, which the last
clause takes in, is the model's choice (DESIGN CHOICE, unsafe: log entry 10). -/
def Obligations.CellWriteUpdatesOneCell : Prop :=
  ∀ (b : Bus) (d : TextDisplay) (char curX curY : WriteOnly) (onChar onCurX onCurY : Bool) (v : Byte),
    b.dev = .textDisplay d → d.params.variant = .cell char curX curY onChar onCurX onCurY → d.params.Distinct →
    ∀ (w : WriteOnly) (trigger : Bool) (latched : TextDisplay),
      (w, trigger, latched) ∈ [(char, onChar, { d with char := v }), (curX, onCurX, { d with curX := v }),
        (curY, onCurY, { d with curY := v })] →
      ∃ e : TextDisplay, (b.write w.addr v).dev = .textDisplay e ∧ e.params = d.params ∧ e.key = d.key ∧
        e.char = latched.char ∧ e.curX = latched.curX ∧ e.curY = latched.curY ∧ e.grid.length = d.grid.length ∧
        (∀ cells : List Byte, trigger = true → d.grid[e.curY.toNat]? = some cells → e.curX.toNat < cells.length →
          (e.grid[e.curY.toNat]?.bind fun row => row[e.curX.toNat]?) = some e.char) ∧
        (∀ y x : Nat, trigger = false ∨ y ≠ e.curY.toNat ∨ x ≠ e.curX.toNat →
          (e.grid[y]?.bind fun row => row[x]?) = (d.grid[y]?.bind fun row => row[x]?))

/-- R217: the key address of the Text display returns the last key or the sentinel; the read clears the key exactly if the
parameter `TD_KEY_CONSUME` says so, and a write to it changes no later read of it. Where another special address is the key's, that the
key answers is the model's choice (log entry 6). -/
def Obligations.KeyAddressReads : Prop :=
  ∀ (b : Bus) (d : TextDisplay) (v : Byte), b.dev = .textDisplay d →
    (∀ k, d.key = some k → (b.read d.params.keyAddr).1 = k) ∧
    (d.key = none → (b.read d.params.keyAddr).1 = d.params.keySentinel) ∧
    (d.params.keyConsume = false → (b.read d.params.keyAddr).2 = b) ∧
    (d.params.keyConsume = true → (b.read d.params.keyAddr).2.dev = .textDisplay { d with key := none }) ∧
    ((b.write d.params.keyAddr v).read d.params.keyAddr).1 = (b.read d.params.keyAddr).1

/-- No step and no sequence of host calls changes which of the devices of R214 the bus has, or a parameter of it; the device's
state may change. That parameters never change is the model's choice (log entry 5); so is a ROM load past the first step, and an
update of an input the device lacks, among the host calls (log entries 13 and 15). -/
def Obligations.DeviceParametersAreFixed : Prop :=
  (∀ s t : State, step s = .next t → s.bus.dev.SameParams t.bus.dev) ∧
  ∀ (cs : List HostCall) (s t : State), hostCalls cs s = .next t → s.bus.dev.SameParams t.bus.dev

/-! ## Interrupt, reset, launch (60_exceptions.md, 70_reset_and_hazards.md) -/

/-- R203: `interrupt(addr)` sets `pc` to addr and does nothing else. That `pc` is addr exactly and that the latch is untouched
is the spec's own decision D10 (log entry 3). -/
def Obligations.InterruptOnlySetsPc : Prop :=
  ∀ (s : State) (addr : Addr), hostCall (.interrupt addr) s = .next (s.interrupt addr) ∧
    (s.interrupt addr).pc = addr ∧ OnlyRegs [] s (s.interrupt addr)

/-- R206, with the spec's own decision D27 (log entry 3): two interrupts between steps leave `pc` at the second's address and
everything else as it was, like the second alone. -/
def Obligations.LastInterruptWins : Prop :=
  ∀ (s : State) (a b : Addr), ∃ t : State, hostCalls [.interrupt a, .interrupt b] s = .next t ∧ t.pc = b ∧ OnlyRegs [] s t ∧
    hostCalls [.interrupt b] s = .next t

/-- R108: an armed latch survives `interrupt(addr)`: the next step stores the byte at a plain `addr` into the target and
goes on at `addr + 1`. That the latch survives is the spec's own decision D10 (log entry 3). -/
def Obligations.ArmedLatchSurvivesInterrupt : Prop :=
  ∀ (s : State) (addr : Addr), s.latch.armed = true → s.bus.dev.special addr = false →
    ∃ t : State, hostCalls [.interrupt addr, .step] s = .next t ∧ t.reg s.latch.target = s.peek addr ∧
      RegsKeptBut [s.latch.target] s t ∧ t.latch.armed = false ∧ t.pc.toNat = (addr.toNat + 1) % 65536 ∧
      t.sp = s.sp ∧ BusKept s t

/-- R26, R36, R240: the core's state after reset. The 0 of `latch.target` is the spec's own choice D12. -/
def Obligations.ResetCoreState : Prop :=
  (∀ n : Reg, State.reset.reg n = 0#8) ∧ State.reset.pc = 0x0100#16 ∧ State.reset.sp = 0x0400#16 ∧
  State.reset.latch = { armed := false, target := 0#4 }

/-- R240, R242: the host's reset gives the core its reset state and leaves the store and the device as they are; that it
applies between any two steps is the spec's own decision D11, and the 0 of `latch.target` its decision D12 (log entry 3). -/
def Obligations.HostResetKeepsTheBus : Prop :=
  ∀ s : State, ∃ t : State, hostCall .reset s = .next t ∧ (∀ n : Reg, t.reg n = 0#8) ∧ t.pc = 0x0100#16 ∧ t.sp = 0x0400#16 ∧
    t.latch = { armed := false, target := 0#4 } ∧ BusKept s t

/-- R71, R243: after a launch by the STORE path the core is in its reset state, the device is the one given, byte i of the
store is byte i of the ROM, and every other store byte is INIT_MEM's; a ROM over 65536 bytes is refused (I5). -/
def Obligations.LaunchPlacesTheRom : Prop :=
  ∀ (dev : Device) (rom : List Byte),
    (rom.length ≤ 65536 → ∃ t : State, launch dev .store rom = .next t ∧ (∀ n, t.reg n = 0#8) ∧ t.pc = 0x0100#16 ∧
      t.sp = 0x0400#16 ∧ t.latch.armed = false ∧ t.bus.dev = dev ∧
      (∀ (k : Nat) (v : Byte), rom[k]? = some v → Memory.read t.bus.store (BitVec.ofNat 16 k) = v) ∧
      ∀ a : Addr, rom.length ≤ a.toNat → Memory.read t.bus.store a = Config.initMem a) ∧
    (65536 < rom.length → launch dev .store rom = .refused (.oversizeRom rom.length))

/-- The word that `withFetchWord` places is fetched and run by the very next step, on every device and latch state
(log entry 14: the model's own operation). -/
def Obligations.PlacedWordRunsNext : Prop :=
  ∀ (s : State) (w : Nat) (i : Instr), decodeTableWord 8 w = some i →
    step (s.withFetchWord 8 w) = exec i (s.withFetchWord 8 w)

/-! ## Invariants -/

/-- The invariant holds at reset (on the reference platform: log entries 1 and 4). -/
def Obligations.InvariantAtReset : Prop := State.reset.Inv

/-- R50, R61, R217, R218: from every state that meets the invariant, a step gives a state that meets it. That no step changes a
device's parameters is the model's choice (log entry 5). -/
def Obligations.StepKeepsTheInvariant : Prop :=
  ∀ s t : State, s.Inv → step s = .next t → t.Inv

/-- R219: from every state that meets the invariant, any sequence of host calls, steps among them, gives a state that meets
it; and a launch of a well-formed device gives such a state. R219 gives the ROM load only before the first step: that the
sequence may hold one later, and an update of an input the device lacks, is the model's choice (log entries 13 and 15), as is
that no call changes a parameter (log entry 5). -/
def Obligations.HostCallsKeepTheInvariant : Prop :=
  (∀ (cs : List HostCall) (s t : State), s.Inv → hostCalls cs s = .next t → t.Inv) ∧
  ∀ (dev : Device) (path : RomLoadPath) (rom : List Byte) (t : State), dev.Wf → launch dev path rom = .next t → t.Inv

/-! ## Assembly language (30_encoding.md) -/

/-- R88, with the spec's own decision D17: the exact bytes of the seven pseudo-instructions, and the refusal of JNZI r1 and r2.
Here `e` is a number; which forms of `e` there are is the model's choice (log entry 18). -/
def Obligations.PseudoInstructionBytes : Prop :=
  ∀ (e : Addr) (n : Reg),
    (assemble [.seta (.num e)]).map (fun l => l.map Prod.snd) = .ok [0x01, highByte e, 0x02, lowByte e] ∧
    (assemble [.jmpi (.num e)]).map (fun l => l.map Prod.snd) = .ok [0x01, highByte e, 0x02, lowByte e, 0x10] ∧
    (assemble [.calli (.num e)]).map (fun l => l.map Prod.snd) = .ok [0x01, highByte e, 0x02, lowByte e, 0x11] ∧
    (n ≠ 1#4 → n ≠ 2#4 → (assemble [.jnzi n (.num e)]).map (fun l => l.map Prod.snd) =
      .ok [0x01, highByte e, 0x02, lowByte e, nibbles 0x2 n]) ∧
    (n = 1#4 ∨ n = 2#4 → assemble [.jnzi n (.num e)] = .error (.jnziClobbersOperand n)) ∧
    (assemble [.clr n]).map (fun l => l.map Prod.snd) = .ok [nibbles 0x0 n, 0x00] ∧
    (assemble [.setlt]).map (fun l => l.map Prod.snd) = .ok [0x03, 0x00] ∧
    (assemble [.setgt]).map (fun l => l.map Prod.snd) = .ok [0x03, 0x01]

/-- R89: disassembling the bytes of lines, from an instruction start, gives the lines back. -/
def Obligations.DisassembleOfLines : Prop :=
  ∀ ls : List AsmLine, (∀ l ∈ ls, l.Plain) → disassemble (ls.flatMap AsmLine.bytes) = ls

/-! ## Device inputs (60_exceptions.md) -/

/-- R218, R219, I14: an input update of the host is what the device's read-only address returns from then on, and it changes
nothing else: the button, the key, and the digital inputs, one bit per input. A read of the input address has no effect, and
neither a later read of it nor the device is changed by a write there. That inputs on one bit are joined by OR and that a
parameter inverts bits is the model's choice (log entry 11), as is that the key answers where another special address of the
Text display is the key's (log entry 6). -/
def Obligations.InputUpdatesAreRead : Prop :=
  ∀ s : State,
    (∀ (d : ButtonLed) (p : Bool), s.bus.dev = .buttonLed d →
      ∃ t : State, hostCall (.button p) s = .next t ∧ OnlyInputAt 1#16 s t ∧
        t.bus.dev = .buttonLed { d with pressed := p } ∧ t.peek 1#16 = if p = true then d.pressedByte else d.releasedByte) ∧
    (∀ (d : TextDisplay) (k : Option Byte), s.bus.dev = .textDisplay d →
      ∃ t : State, hostCall (.key k) s = .next t ∧ OnlyInputAt d.params.keyAddr s t ∧
        t.bus.dev = .textDisplay { d with key := k } ∧
        t.peek d.params.keyAddr = (match k with | some v => v | none => d.params.keySentinel)) ∧
    (∀ (d : Command) (levels : List Bool), s.bus.dev = .command d → d.params.Distinct →
      ∃ t : State, hostCall (.inputs levels) s = .next t ∧ OnlyInputAt d.params.inputAddr s t ∧
        t.bus.dev = .command { d with inputs := levels } ∧
        (∀ k : Fin 8, (t.peek d.params.inputAddr).getLsbD k.val ≠ d.params.inputInvert.getLsbD k.val ↔
          ∃ j : Nat, levels[j]? = some true ∧ d.params.inputBits[j]? = some k) ∧
        (t.bus.read d.params.inputAddr).2 = t.bus ∧
        ∀ v : Byte, (t.bus.write d.params.inputAddr v).dev = t.bus.dev ∧
          ((t.bus.write d.params.inputAddr v).read d.params.inputAddr).1 = t.peek d.params.inputAddr)
end

