-- ==== Sys2Proof/Laws/Memory.lean ====
section
/-! SUPPORT. The store: a read after a write, and the canonical form that every operation keeps. -/

namespace Sys2Proof.Machine

/-- The listed byte after a write: the written one at its address, the old one elsewhere. -/
theorem Memory.byteAt_set (m : Memory) (a b : Nat) (v : Byte) :
    Memory.byteAt (Memory.set m a v) b = if b = a then some v else Memory.byteAt m b := by
  induction m with
  | nil => simp [Memory.set, Memory.byteAt, eq_comm]
  | cons c m ih =>
    obtain ⟨k, w⟩ := c
    unfold Memory.set
    split
    · simp [Memory.byteAt, eq_comm]
    · split
      · next h =>
        subst h
        by_cases hb : b = a
        · simp [Memory.byteAt, hb]
        · simp [Memory.byteAt, hb, Ne.symm hb]
      · next h =>
        by_cases hk : k = b
        · subst hk; simp [Memory.byteAt, Ne.symm h]
        · simp [Memory.byteAt, hk, ih]

/-- A read after a write (R63, R66). -/
theorem Memory.read_write (m : Memory) (a b : Addr) (v : Byte) :
    Memory.read (Memory.write m a v) b = if b = a then v else Memory.read m b := by
  by_cases h : b = a
  · simp [Memory.read, Memory.write, Memory.byteAt_set, h]
  · have hne : b.toNat ≠ a.toNat := fun e => h (BitVec.eq_of_toNat_eq e)
    simp [Memory.read, Memory.write, Memory.byteAt_set, h, hne]

@[simp] theorem Memory.read_write_same (m : Memory) (a : Addr) (v : Byte) : Memory.read (Memory.write m a v) a = v := by
  simp [Memory.read_write]

theorem Memory.read_write_ne (m : Memory) (a b : Addr) (v : Byte) (h : b ≠ a) :
    Memory.read (Memory.write m a v) b = Memory.read m b := by simp [Memory.read_write, h]

/-- The addresses of a store after a write: the written one and the old ones. -/
theorem Memory.mem_set (m : Memory) (a : Nat) (v : Byte) (c : Host.Cell) (h : c ∈ Memory.set m a v) :
    c.1 = a ∨ c ∈ m := by
  induction m with
  | nil => simp_all [Memory.set]
  | cons d m ih =>
    obtain ⟨k, w⟩ := d
    unfold Memory.set at h
    split at h
    · simp only [List.mem_cons] at h ⊢
      rcases h with rfl | h <;> simp_all
    · split at h
      · simp only [List.mem_cons] at h ⊢
        rcases h with rfl | h <;> simp_all
      · simp only [List.mem_cons] at h ⊢
        rcases h with rfl | h
        · simp
        · rcases ih h with h | h <;> simp_all

/-- A write keeps the addresses strictly rising. -/
theorem Memory.set_rising (m : Memory) (a : Nat) (v : Byte) (h : m.Pairwise (fun c d => c.1 < d.1)) :
    (Memory.set m a v).Pairwise (fun c d => c.1 < d.1) := by
  induction m with
  | nil => simp [Memory.set]
  | cons c m ih =>
    obtain ⟨k, w⟩ := c
    obtain ⟨hk, hm⟩ := List.pairwise_cons.mp h
    unfold Memory.set
    split
    · next hlt =>
      refine List.pairwise_cons.mpr ⟨fun d hd => ?_, h⟩
      rcases List.mem_cons.mp hd with rfl | hd
      · exact hlt
      · exact lt_trans hlt (hk d hd)
    · split
      · next he => subst he; exact List.pairwise_cons.mpr ⟨hk, hm⟩
      · refine List.pairwise_cons.mpr ⟨fun d hd => ?_, ih hm⟩
        rcases Memory.mem_set m a v d hd with he | hd
        · simp only at he ⊢; omega
        · exact hk d hd

/-- Every write keeps the canonical form. -/
theorem Memory.write_wf (m : Memory) (a : Addr) (v : Byte) (h : Memory.wf m) : Memory.wf (Memory.write m a v) := by
  refine ⟨Memory.set_rising m a.toNat v h.1, fun c hc => ?_⟩
  rcases Memory.mem_set m a.toNat v c hc with he | hc
  · rw [he]; exact a.isLt
  · exact h.2 c hc

/-- The store with nothing listed has the canonical form. -/
theorem Memory.nil_wf : Memory.wf [] := by simp [Memory.wf]

end Sys2Proof.Machine
end

