-- ==== Sys2Proof/Laws/Device.lean ====
section
/-! SUPPORT. What a bus read and a bus write can do: the plain store off the special set; on it, everything the provers
cite instead of unfolding the devices. -/

namespace Sys2Proof.Machine

@[simp] theorem Bus.readStore_fst (b : Bus) (a : Addr) : (b.readStore a).1 = Memory.read b.store a := rfl
@[simp] theorem Bus.readStore_snd (b : Bus) (a : Addr) : (b.readStore a).2 = b := rfl
@[simp] theorem Bus.writeStore_store (b : Bus) (a : Addr) (v : Byte) :
    (b.writeStore a v).store = Memory.write b.store a v := rfl
@[simp] theorem Bus.writeStore_dev (b : Bus) (a : Addr) (v : Byte) : (b.writeStore a v).dev = b.dev := rfl
@[simp] theorem Bus.writeStore_free (b : Bus) (a : Addr) (v : Byte) : (b.writeStore a v).free = b.free := rfl
@[simp] theorem Bus.writeStoreIf_dev (b : Bus) (c : Bool) (a : Addr) (v : Byte) : (b.writeStoreIf c a v).dev = b.dev := by
  cases c <;> rfl

/-- A write that may go to the store either sets the byte or leaves the store alone. -/
theorem Bus.writeStoreIf_store (b : Bus) (c : Bool) (a : Addr) (v : Byte) :
    (b.writeStoreIf c a v).store = Memory.write b.store a v ∨ (b.writeStoreIf c a v).store = b.store := by
  cases c <;> simp [Bus.writeStoreIf]

/-- A read of a write-only address leaves the store and the device alone. -/
@[simp] theorem Bus.readWriteOnly_store (b : Bus) (w : WriteOnly) (a : Addr) : (b.readWriteOnly w a).2.store = b.store := by
  unfold Bus.readWriteOnly; split <;> rfl
@[simp] theorem Bus.readWriteOnly_dev (b : Bus) (w : WriteOnly) (a : Addr) : (b.readWriteOnly w a).2.dev = b.dev := by
  unfold Bus.readWriteOnly; split <;> rfl

/-- Off the special set no write-only address of the display is met. -/
theorem TextVariant.find_none (v : TextVariant) (a : Addr) (h : v.writeOnly.any (fun w => w.addr == a) = false) :
    v.writeOnly.find? (fun w => w.addr == a) = none := by
  simpa [List.find?_eq_none] using h

/-- A read off the special set is a read of the store with no effect (R61, R63). -/
theorem Bus.read_plain (b : Bus) (a : Addr) (h : b.dev.special a = false) : b.read a = (Memory.read b.store a, b) := by
  unfold Bus.read
  split
  · rfl
  · next hd =>
    rw [hd] at h
    simp only [Device.special, Bool.or_eq_false_iff, beq_eq_false_iff_ne] at h
    unfold Bus.readButtonLed
    rw [if_neg h.2]
    rfl
  · next d hd =>
    rw [hd] at h
    simp only [Device.special, Bool.or_eq_false_iff, beq_eq_false_iff_ne] at h
    simp [Bus.readTextDisplay, h.1, TextVariant.find_none _ _ h.2, Bus.readStore]
  · next d hd =>
    rw [hd] at h
    simp only [Device.special, Bool.or_eq_false_iff, beq_eq_false_iff_ne, decide_eq_false_iff_not] at h
    simp [Bus.readCommand, h.1.1, h.1.2, h.2, Bus.readStore]

/-- A write off the special set sets the store byte and nothing else (R61). -/
theorem Bus.write_plain (b : Bus) (a : Addr) (v : Byte) (h : b.dev.special a = false) : b.write a v = b.writeStore a v := by
  unfold Bus.write
  split
  · rfl
  · next hd =>
    rw [hd] at h
    simp only [Device.special, Bool.or_eq_false_iff, beq_eq_false_iff_ne] at h
    unfold Bus.writeButtonLed
    rw [if_neg h.1, if_neg h.2]
  · next d hd =>
    rw [hd] at h
    simp only [Device.special, Bool.or_eq_false_iff, beq_eq_false_iff_ne] at h
    unfold Bus.writeTextDisplay
    rw [if_neg h.1]
    split
    · next hv =>
      have hn : ∀ w ∈ d.params.variant.writeOnly, w.addr ≠ a := by simpa using h.2
      simp only [hv, TextVariant.writeOnly, List.mem_singleton, forall_eq] at hn
      simp [Ne.symm hn]
    · next hv =>
      have hn : ∀ w ∈ d.params.variant.writeOnly, w.addr ≠ a := by simpa using h.2
      simp only [hv, TextVariant.writeOnly, List.mem_cons, List.not_mem_nil, or_false, forall_eq_or_imp, forall_eq] at hn
      simp [Ne.symm hn.1, Ne.symm hn.2.1, Ne.symm hn.2.2]
  · next d hd =>
    rw [hd] at h
    simp only [Device.special, Bool.or_eq_false_iff, beq_eq_false_iff_ne, decide_eq_false_iff_not] at h
    simp [Bus.writeCommand, h.1.1, h.1.2, h.2]

/-- A read never changes the store (R63 names no side effect of a read on it). -/
@[simp] theorem Bus.read_store (b : Bus) (a : Addr) : (b.read a).2.store = b.store := by
  unfold Bus.read
  split
  · rfl
  · unfold Bus.readButtonLed; split <;> rfl
  · unfold Bus.readTextDisplay
    split
    · rfl
    · split <;> simp
  · unfold Bus.readCommand
    split
    · rfl
    · split
      · simp
      · split <;> rfl

/-- What a read can do to the device: nothing, or the consumed key of the Text display (D21). -/
theorem Bus.read_dev (b : Bus) (a : Addr) :
    (b.read a).2.dev = b.dev ∨ ∃ d, b.dev = .textDisplay d ∧ (b.read a).2.dev = .textDisplay d.afterKeyRead := by
  unfold Bus.read
  split
  · exact .inl rfl
  · unfold Bus.readButtonLed; split <;> exact .inl rfl
  · next d hd =>
    unfold Bus.readTextDisplay
    split
    · exact .inr ⟨d, hd, rfl⟩
    · split <;> exact .inl (by simp)
  · unfold Bus.readCommand
    split
    · exact .inl rfl
    · split
      · exact .inl (by simp)
      · split <;> exact .inl rfl

@[simp] theorem TextDisplay.afterKeyRead_params (d : TextDisplay) : d.afterKeyRead.params = d.params := by
  unfold TextDisplay.afterKeyRead; split <;> rfl
@[simp] theorem TextDisplay.afterKeyRead_grid (d : TextDisplay) : d.afterKeyRead.grid = d.grid := by
  unfold TextDisplay.afterKeyRead; split <;> rfl
@[simp] theorem TextDisplay.snapshot_params (d : TextDisplay) (m : Memory) (base : Addr) (row : Option Nat) :
    (d.snapshot m base row).params = d.params := by
  unfold TextDisplay.snapshot; split <;> rfl
@[simp] theorem TextDisplay.updateCell_params (d : TextDisplay) : d.updateCell.params = d.params := rfl

/-- A slice has as many bytes as the grid has columns. -/
@[simp] theorem storeSlice_length (m : Memory) (base : Addr) (cols : Nat) : (storeSlice m base cols).length = cols := by
  simp [storeSlice]

/-- A snapshot keeps the size of the grid. -/
theorem TextDisplay.snapshot_gridWf (d : TextDisplay) (m : Memory) (base : Addr) (row : Option Nat) (h : d.GridWf) :
    (d.snapshot m base row).GridWf := by
  unfold TextDisplay.snapshot
  split
  · refine ⟨by simpa using h.1, fun r hr => ?_⟩
    rcases List.mem_or_eq_of_mem_set hr with hr | rfl
    · exact h.2 r hr
    · simp
  · exact h

/-- A cell update keeps the size of the grid. -/
theorem TextDisplay.updateCell_gridWf (d : TextDisplay) (h : d.GridWf) : d.updateCell.GridWf := by
  refine ⟨by simpa [TextDisplay.updateCell] using h.1, fun r hr => ?_⟩
  by_cases hy : d.curY.toNat < d.grid.length
  · rcases List.mem_or_eq_of_mem_set hr with hr | rfl
    · exact h.2 r hr
    · simp only [List.length_set, TextDisplay.updateCell_params]
      rw [List.getD_eq_getElem _ _ hy]
      exact h.2 _ (List.getElem_mem hy)
  · have hset : d.updateCell.grid = d.grid := by
      simp [TextDisplay.updateCell, List.set_eq_of_length_le (Nat.le_of_not_lt hy)]
    rw [hset] at hr
    exact h.2 r hr

/-- What a write can do to the device: the same variant with the same parameters, still well formed. -/
theorem Bus.write_dev (b : Bus) (a : Addr) (v : Byte) :
    b.dev.SameParams (b.write a v).dev ∧ (b.dev.Wf → (b.write a v).dev.Wf) := by
  unfold Bus.write
  split
  · next hd => simp [hd, Device.SameParams]
  · next d hd =>
    unfold Bus.writeButtonLed
    split
    · simp [hd, Device.SameParams, Device.Wf]
    · split <;> simp [hd, Device.SameParams]
  · next d hd =>
    unfold Bus.writeTextDisplay
    split
    · simp [hd, Device.SameParams]
    · split
      · split
        · rw [hd]
          exact ⟨by simp [Device.SameParams], fun h =>
            ⟨by simpa using h.1, TextDisplay.snapshot_gridWf _ _ _ _ h.2⟩⟩
        · simp [hd, Device.SameParams]
      · split
        · simp only [Bus.writeCell, hd]; split
          · exact ⟨rfl, fun h => ⟨h.1, TextDisplay.updateCell_gridWf _ h.2⟩⟩
          · exact ⟨rfl, fun h => h⟩
        · split
          · simp only [Bus.writeCell, hd]; split
            · exact ⟨rfl, fun h => ⟨h.1, TextDisplay.updateCell_gridWf _ h.2⟩⟩
            · exact ⟨rfl, fun h => h⟩
          · split
            · simp only [Bus.writeCell, hd]; split
              · exact ⟨rfl, fun h => ⟨h.1, TextDisplay.updateCell_gridWf _ h.2⟩⟩
              · exact ⟨rfl, fun h => h⟩
            · simp [hd, Device.SameParams]
  · next d hd =>
    unfold Bus.writeCommand
    split
    · simp [hd, Device.SameParams, Device.Wf]
    · split
      · simp [hd, Device.SameParams, Device.Wf, Command.swap]
      · split <;> simp [hd, Device.SameParams]

/-- What a write can do to the store: the written byte, or nothing (a special address). -/
theorem Bus.write_store (b : Bus) (a : Addr) (v : Byte) :
    (b.write a v).store = Memory.write b.store a v ∨ (b.write a v).store = b.store := by
  unfold Bus.write
  split
  · exact .inl rfl
  · unfold Bus.writeButtonLed
    split
    · exact .inl rfl
    · split
      · exact Bus.writeStoreIf_store ..
      · exact .inl rfl
  · unfold Bus.writeTextDisplay
    split
    · exact Bus.writeStoreIf_store ..
    · split
      · split
        · exact Bus.writeStoreIf_store ..
        · exact .inl rfl
      · repeat' split
        · exact Bus.writeStoreIf_store ..
        · exact Bus.writeStoreIf_store ..
        · exact Bus.writeStoreIf_store ..
        · exact .inl rfl
  · unfold Bus.writeCommand
    split
    · exact .inr rfl
    · split
      · exact Bus.writeStoreIf_store ..
      · split
        · exact Bus.writeStoreIf_store ..
        · exact .inl rfl

/-- A device is its own variant with its own parameters. -/
theorem Device.SameParams.refl (d : Device) : d.SameParams d := by cases d <;> simp [Device.SameParams]

theorem Device.SameParams.trans {d e f : Device} (h : d.SameParams e) (k : e.SameParams f) : d.SameParams f := by
  cases d <;> cases e <;> cases f <;> simp_all [Device.SameParams]

/-- The special set depends on the parameters alone. -/
theorem Device.SameParams.special {d e : Device} (h : d.SameParams e) (a : Addr) : e.special a = d.special a := by
  cases d <;> cases e <;> simp_all [Device.SameParams, Device.special]

/-- A read keeps the variant, its parameters and its form. -/
theorem Bus.read_dev_kept (b : Bus) (a : Addr) :
    b.dev.SameParams (b.read a).2.dev ∧ (b.dev.Wf → (b.read a).2.dev.Wf) := by
  rcases Bus.read_dev b a with h | ⟨d, hd, h⟩
  · rw [h]; exact ⟨Device.SameParams.refl _, id⟩
  · rw [hd, h]
    refine ⟨by simp [Device.SameParams], fun hw => ⟨by simpa using hw.1, ?_⟩⟩
    simpa [TextDisplay.GridWf] using hw.2

/-- A store byte that changes is read at its own address only, whatever the device is. -/
theorem Bus.read_writeStore_ne (b : Bus) (a c : Addr) (v : Byte) (h : c ≠ a) :
    ((b.writeStore a v).read c).1 = (b.read c).1 := by
  have hs : Memory.read (Memory.write b.store a v) c = Memory.read b.store c := Memory.read_write_ne _ _ _ _ h
  have hw : ∀ w : WriteOnly, ((b.writeStore a v).readWriteOnly w c).1 = (b.readWriteOnly w c).1 := by
    intro w; unfold Bus.readWriteOnly; split <;> simp [hs]
  unfold Bus.read
  rw [Bus.writeStore_dev]
  split
  · simp [hs]
  · unfold Bus.readButtonLed; split <;> simp [hs]
  · unfold Bus.readTextDisplay
    split
    · rfl
    · split
      · exact hw _
      · simp [hs]
  · unfold Bus.readCommand
    split
    · rfl
    · split
      · exact hw _
      · split
        · rfl
        · simp [hs]

/-! ## Addresses whose read has no side effect (R245) -/

/-- It is the parameters that say which reads have a side effect. -/
theorem Device.SameParams.readQuiet {d e : Device} (h : d.SameParams e) {a : Addr} (q : d.ReadQuiet a) : e.ReadQuiet a :=
  fun b hb => q b (h.trans hb)

/-- A read of a quiet address leaves the bus as it is. -/
theorem Bus.read_quiet (b : Bus) (a : Addr) (q : b.dev.ReadQuiet a) : b.read a = ((b.read a).1, b) :=
  Prod.ext rfl (q b (Device.SameParams.refl _))

/-- Every plain address is quiet. -/
theorem Device.readQuiet_plain (d : Device) (a : Addr) (h : d.special a = false) : d.ReadQuiet a :=
  fun b hb => by rw [b.read_plain a (by rw [hb.special, h])]

/-- A device that is the same variant with the same parameters, for each variant. -/
theorem Device.SameParams.eq_buttonLed {d : ButtonLed} {e : Device} (h : (Device.buttonLed d).SameParams e) :
    ∃ f, e = .buttonLed f := by
  cases e <;> simp_all [Device.SameParams]
theorem Device.SameParams.eq_textDisplay {d : TextDisplay} {e : Device} (h : (Device.textDisplay d).SameParams e) :
    ∃ f, e = .textDisplay f ∧ f.params = d.params := by
  cases e <;> simp_all [Device.SameParams]
theorem Device.SameParams.eq_command {d : Command} {e : Device} (h : (Device.command d).SameParams e) :
    ∃ f, e = .command f ∧ f.params = d.params := by
  cases e <;> simp_all [Device.SameParams]

/-- Every address of the Button+LED device is quiet, its two special addresses included. -/
theorem Device.readQuiet_buttonLed (d : ButtonLed) (a : Addr) : (Device.buttonLed d).ReadQuiet a := by
  intro b hb
  obtain ⟨f, hf⟩ := hb.eq_buttonLed
  simp only [Bus.read, hf, Bus.readButtonLed]
  split <;> rfl

/-- A read-back from the store or of a fixed byte is quiet. -/
theorem Bus.readWriteOnly_quiet (b : Bus) (w : WriteOnly) (a : Addr) (h : w.readBack ≠ .anyValue) :
    (b.readWriteOnly w a).2 = b := by
  unfold Bus.readWriteOnly
  split
  · rfl
  · rfl
  · next hw => exact absurd hw h

/-- The key address of the Text display is quiet if a read does not consume the key. -/
theorem Device.readQuiet_key (d : TextDisplay) (h : d.params.keyConsume = false) :
    (Device.textDisplay d).ReadQuiet d.params.keyAddr := by
  intro b hb
  obtain ⟨f, hf, hp⟩ := hb.eq_textDisplay
  have hr : (b.read d.params.keyAddr).2 = { b with dev := .textDisplay f.afterKeyRead } := by
    simp [Bus.read, hf, hp, Bus.readTextDisplay]
  rw [hr, TextDisplay.afterKeyRead, hp, h, if_neg (by decide), ← hf]

/-- Every other address of the Text display is quiet if no read-back is a free value. -/
theorem Device.readQuiet_textDisplay (d : TextDisplay) (a : Addr) (ha : a ≠ d.params.keyAddr)
    (h : ∀ w ∈ d.params.variant.writeOnly, w.addr = a → w.readBack ≠ .anyValue) : (Device.textDisplay d).ReadQuiet a := by
  intro b hb
  obtain ⟨f, hf, hp⟩ := hb.eq_textDisplay
  simp only [Bus.read, hf, Bus.readTextDisplay, hp, if_neg ha]
  split
  · next w hw => exact b.readWriteOnly_quiet w a (h w (List.mem_of_find?_eq_some hw) (by simpa using List.find?_some hw))
  · rfl

/-- Every address of the Command/controller device is quiet but a trigger whose read-back is a free value. -/
theorem Device.readQuiet_command (d : Command) (a : Addr)
    (h : a = d.params.trigger.addr → d.params.trigger.readBack ≠ .anyValue) : (Device.command d).ReadQuiet a := by
  intro b hb
  obtain ⟨f, hf, hp⟩ := hb.eq_command
  simp only [Bus.read, hf, Bus.readCommand, hp]
  split
  · rfl
  · split
    · next ha => exact b.readWriteOnly_quiet _ a (h ha)
    · split <;> rfl

/-! ## Device inputs -/

/-- The bit that one input sets. -/
theorem one_shiftLeft_getLsbD : ∀ n k : Fin 8, ((1 : Byte) <<< n.val).getLsbD k.val = decide (n = k) := by decide

/-- R218, I12: a bit of the input byte, before the inverting parameter, is set exactly if an active input has it. -/
theorem activeInputs_getLsbD (inputs : List Bool) (bits : List (Fin 8)) (k : Fin 8) :
    (activeInputs inputs bits).getLsbD k.val = true ↔ ∃ j : Nat, inputs[j]? = some true ∧ bits[j]? = some k := by
  induction inputs generalizing bits with
  | nil => simp [activeInputs]
  | cons x xs ih =>
    cases bits with
    | nil => simp [activeInputs]
    | cons n ns =>
      have hone := one_shiftLeft_getLsbD n k
      have hfold : activeInputs (x :: xs) (n :: ns) =
          if x then activeInputs xs ns ||| (1 : Byte) <<< n.val else activeInputs xs ns := rfl
      constructor
      · intro h
        by_cases hk : x = true ∧ n = k
        · exact ⟨0, by simp [hk.1], by simp [hk.2]⟩
        · have : (activeInputs xs ns).getLsbD k.val = true := by
            cases x <;> simp_all
          obtain ⟨j, hj⟩ := (ih ns).1 this
          exact ⟨j + 1, by simpa using hj⟩
      · rintro ⟨j, hx, hn⟩
        cases j with
        | zero => simp_all
        | succ j =>
          have := (ih ns).2 ⟨j, by simpa using hx, by simpa using hn⟩
          cases x <;> simp_all

end Sys2Proof.Machine
end

