-- ==== Sys2Proof/Laws/State.lean ====
section
/-! SUPPORT. One lemma per field per update of the state, and reading a register after each update, so that no proof unfolds
a record update. -/

namespace Sys2Proof.Machine

variable (s : State)

@[simp] theorem State.setReg_regs (n : Reg) (v : Byte) : (s.setReg n v).regs = s.regs.set n.toNat v n.isLt := rfl
@[simp] theorem State.setReg_pc (n : Reg) (v : Byte) : (s.setReg n v).pc = s.pc := rfl
@[simp] theorem State.setReg_sp (n : Reg) (v : Byte) : (s.setReg n v).sp = s.sp := rfl
@[simp] theorem State.setReg_latch (n : Reg) (v : Byte) : (s.setReg n v).latch = s.latch := rfl
@[simp] theorem State.setReg_bus (n : Reg) (v : Byte) : (s.setReg n v).bus = s.bus := rfl

@[simp] theorem State.setAcc_regs (v : Byte) : (s.setAcc v).regs = s.regs.set (0#4).toNat v (0#4).isLt := rfl
@[simp] theorem State.setAcc_pc (v : Byte) : (s.setAcc v).pc = s.pc := rfl
@[simp] theorem State.setAcc_sp (v : Byte) : (s.setAcc v).sp = s.sp := rfl
@[simp] theorem State.setAcc_latch (v : Byte) : (s.setAcc v).latch = s.latch := rfl
@[simp] theorem State.setAcc_bus (v : Byte) : (s.setAcc v).bus = s.bus := rfl

@[simp] theorem State.setStatus_regs (v : Byte) : (s.setStatus v).regs = s.regs.set (3#4).toNat v (3#4).isLt := rfl
@[simp] theorem State.setStatus_pc (v : Byte) : (s.setStatus v).pc = s.pc := rfl
@[simp] theorem State.setStatus_sp (v : Byte) : (s.setStatus v).sp = s.sp := rfl
@[simp] theorem State.setStatus_latch (v : Byte) : (s.setStatus v).latch = s.latch := rfl
@[simp] theorem State.setStatus_bus (v : Byte) : (s.setStatus v).bus = s.bus := rfl

@[simp] theorem State.setPc_regs (v : Addr) : (s.setPc v).regs = s.regs := rfl
@[simp] theorem State.setPc_pc (v : Addr) : (s.setPc v).pc = v := rfl
@[simp] theorem State.setPc_sp (v : Addr) : (s.setPc v).sp = s.sp := rfl
@[simp] theorem State.setPc_latch (v : Addr) : (s.setPc v).latch = s.latch := rfl
@[simp] theorem State.setPc_bus (v : Addr) : (s.setPc v).bus = s.bus := rfl

@[simp] theorem State.setSp_regs (v : Addr) : (s.setSp v).regs = s.regs := rfl
@[simp] theorem State.setSp_pc (v : Addr) : (s.setSp v).pc = s.pc := rfl
@[simp] theorem State.setSp_sp (v : Addr) : (s.setSp v).sp = v := rfl
@[simp] theorem State.setSp_latch (v : Addr) : (s.setSp v).latch = s.latch := rfl
@[simp] theorem State.setSp_bus (v : Addr) : (s.setSp v).bus = s.bus := rfl

@[simp] theorem State.arm_regs (n : Reg) : (s.arm n).regs = s.regs := rfl
@[simp] theorem State.arm_pc (n : Reg) : (s.arm n).pc = s.pc := rfl
@[simp] theorem State.arm_sp (n : Reg) : (s.arm n).sp = s.sp := rfl
@[simp] theorem State.arm_latch (n : Reg) : (s.arm n).latch = { armed := true, target := n } := rfl
@[simp] theorem State.arm_bus (n : Reg) : (s.arm n).bus = s.bus := rfl

@[simp] theorem State.disarm_regs : (s.disarm).regs = s.regs := rfl
@[simp] theorem State.disarm_pc : (s.disarm).pc = s.pc := rfl
@[simp] theorem State.disarm_sp : (s.disarm).sp = s.sp := rfl
@[simp] theorem State.disarm_latch : (s.disarm).latch = { s.latch with armed := false } := rfl
@[simp] theorem State.disarm_bus : (s.disarm).bus = s.bus := rfl

@[simp] theorem State.postStep_regs : (s.postStep).regs = s.regs := rfl
@[simp] theorem State.postStep_pc : (s.postStep).pc = s.pc + 1#16 := rfl
@[simp] theorem State.postStep_sp : (s.postStep).sp = s.sp := rfl
@[simp] theorem State.postStep_latch : (s.postStep).latch = s.latch := rfl
@[simp] theorem State.postStep_bus : (s.postStep).bus = s.bus := rfl

@[simp] theorem State.transfer_regs (target : Addr) : (s.transfer target).regs = s.regs := rfl
@[simp] theorem State.transfer_pc (target : Addr) : (s.transfer target).pc = target - 1#16 := rfl
@[simp] theorem State.transfer_sp (target : Addr) : (s.transfer target).sp = s.sp := rfl
@[simp] theorem State.transfer_latch (target : Addr) : (s.transfer target).latch = s.latch := rfl
@[simp] theorem State.transfer_bus (target : Addr) : (s.transfer target).bus = s.bus := rfl

@[simp] theorem State.interrupt_regs (addr : Addr) : (s.interrupt addr).regs = s.regs := rfl
@[simp] theorem State.interrupt_pc (addr : Addr) : (s.interrupt addr).pc = addr := rfl
@[simp] theorem State.interrupt_sp (addr : Addr) : (s.interrupt addr).sp = s.sp := rfl
@[simp] theorem State.interrupt_latch (addr : Addr) : (s.interrupt addr).latch = s.latch := rfl
@[simp] theorem State.interrupt_bus (addr : Addr) : (s.interrupt addr).bus = s.bus := rfl

@[simp] theorem State.busRead_regs (a : Addr) : (s.busRead a).2.regs = s.regs := rfl
@[simp] theorem State.busRead_pc (a : Addr) : (s.busRead a).2.pc = s.pc := rfl
@[simp] theorem State.busRead_sp (a : Addr) : (s.busRead a).2.sp = s.sp := rfl
@[simp] theorem State.busRead_latch (a : Addr) : (s.busRead a).2.latch = s.latch := rfl
@[simp] theorem State.busRead_bus (a : Addr) : (s.busRead a).2.bus = (s.bus.read a).2 := rfl

@[simp] theorem State.busWrite_regs (a : Addr) (v : Byte) : (s.busWrite a v).regs = s.regs := rfl
@[simp] theorem State.busWrite_pc (a : Addr) (v : Byte) : (s.busWrite a v).pc = s.pc := rfl
@[simp] theorem State.busWrite_sp (a : Addr) (v : Byte) : (s.busWrite a v).sp = s.sp := rfl
@[simp] theorem State.busWrite_latch (a : Addr) (v : Byte) : (s.busWrite a v).latch = s.latch := rfl
@[simp] theorem State.busWrite_bus (a : Addr) (v : Byte) : (s.busWrite a v).bus = s.bus.write a v := rfl

@[simp] theorem State.update_regs (c : HostCall) : (s.update c).regs = s.regs := rfl
@[simp] theorem State.update_pc (c : HostCall) : (s.update c).pc = s.pc := rfl
@[simp] theorem State.update_sp (c : HostCall) : (s.update c).sp = s.sp := rfl
@[simp] theorem State.update_latch (c : HostCall) : (s.update c).latch = s.latch := rfl
@[simp] theorem State.update_bus (c : HostCall) : (s.update c).bus = { s.bus with dev := s.bus.dev.update c } := rfl

@[simp] theorem State.fetch_regs : s.fetch.2.regs = s.regs := rfl
@[simp] theorem State.fetch_pc : s.fetch.2.pc = s.pc := rfl
@[simp] theorem State.fetch_sp : s.fetch.2.sp = s.sp := rfl
@[simp] theorem State.fetch_latch : s.fetch.2.latch = s.latch := rfl
@[simp] theorem State.fetch_bus : s.fetch.2.bus = (s.bus.read s.pc).2 := rfl
@[simp] theorem State.fetch_fst : s.fetch.1 = s.peek s.pc := rfl
@[simp] theorem State.reg_fetch (m : Reg) : s.fetch.2.reg m = s.reg m := rfl
@[simp] theorem State.addr16_fetch : s.fetch.2.addr16 = s.addr16 := rfl

@[simp] theorem State.placeByte_regs (v : Byte) : (s.placeByte v).regs = s.regs := rfl
@[simp] theorem State.placeByte_pc (v : Byte) : (s.placeByte v).pc = s.pc := rfl
@[simp] theorem State.placeByte_sp (v : Byte) : (s.placeByte v).sp = s.sp := rfl
@[simp] theorem State.placeByte_latch (v : Byte) : (s.placeByte v).latch = { s.latch with armed := false } := rfl
@[simp] theorem State.placeByte_bus (v : Byte) : (s.placeByte v).bus = { s.bus with store := Memory.write s.bus.store s.pc v, dev := s.bus.dev.plainAt s.pc } := rfl

@[simp] theorem State.hostReset_bus : s.hostReset.bus = s.bus := rfl
@[simp] theorem State.hostReset_regs : s.hostReset.regs = State.reset.regs := rfl
@[simp] theorem State.hostReset_pc : s.hostReset.pc = 0x0100#16 := rfl
@[simp] theorem State.hostReset_sp : s.hostReset.sp = 0x0400#16 := rfl
@[simp] theorem State.hostReset_latch : s.hostReset.latch = { armed := false, target := 0#4 } := rfl

@[simp] theorem State.busRead_fst (a : Addr) : (s.busRead a).1 = s.peek a := rfl

/-! Reading a register, the bus or the address pair after an update. -/

/-- A register read after a register write: the written value at that register, the old one elsewhere. -/
theorem State.reg_setReg (n m : Reg) (v : Byte) : (s.setReg n v).reg m = if m = n then v else s.reg m := by
  by_cases h : m = n
  · subst h; simp [State.reg, State.setReg]
  · have hne : n.toNat ≠ m.toNat := fun e => h (BitVec.eq_of_toNat_eq e.symm)
    simp [State.reg, State.setReg, h, Vector.getElem_set_ne, hne]

@[simp] theorem State.reg_setReg_same (n : Reg) (v : Byte) : (s.setReg n v).reg n = v := by simp [State.reg_setReg]
theorem State.reg_setReg_ne (n m : Reg) (v : Byte) (h : m ≠ n) : (s.setReg n v).reg m = s.reg m := by
  simp [State.reg_setReg, h]
theorem State.reg_setAcc (m : Reg) (v : Byte) : (s.setAcc v).reg m = if m = 0#4 then v else s.reg m := s.reg_setReg 0#4 m v
theorem State.reg_setStatus (m : Reg) (v : Byte) : (s.setStatus v).reg m = if m = 3#4 then v else s.reg m :=
  s.reg_setReg 3#4 m v

/-- Writing a register back its own value changes nothing. -/
theorem State.setReg_reg (n : Reg) : s.setReg n (s.reg n) = s := by
  simp [State.setReg, State.reg]

@[simp] theorem State.reg_setPc (v : Addr) (m : Reg) : (s.setPc v).reg m = s.reg m := rfl
@[simp] theorem State.peek_setPc (v : Addr) (a : Addr) : (s.setPc v).peek a = s.peek a := rfl
@[simp] theorem State.addr16_setPc (v : Addr) : (s.setPc v).addr16 = s.addr16 := rfl
@[simp] theorem State.reg_setSp (v : Addr) (m : Reg) : (s.setSp v).reg m = s.reg m := rfl
@[simp] theorem State.peek_setSp (v : Addr) (a : Addr) : (s.setSp v).peek a = s.peek a := rfl
@[simp] theorem State.addr16_setSp (v : Addr) : (s.setSp v).addr16 = s.addr16 := rfl
@[simp] theorem State.reg_arm (n : Reg) (m : Reg) : (s.arm n).reg m = s.reg m := rfl
@[simp] theorem State.peek_arm (n : Reg) (a : Addr) : (s.arm n).peek a = s.peek a := rfl
@[simp] theorem State.addr16_arm (n : Reg) : (s.arm n).addr16 = s.addr16 := rfl
@[simp] theorem State.reg_disarm (m : Reg) : (s.disarm).reg m = s.reg m := rfl
@[simp] theorem State.peek_disarm (a : Addr) : (s.disarm).peek a = s.peek a := rfl
@[simp] theorem State.addr16_disarm : (s.disarm).addr16 = s.addr16 := rfl
@[simp] theorem State.reg_postStep (m : Reg) : (s.postStep).reg m = s.reg m := rfl
@[simp] theorem State.peek_postStep (a : Addr) : (s.postStep).peek a = s.peek a := rfl
@[simp] theorem State.addr16_postStep : (s.postStep).addr16 = s.addr16 := rfl
@[simp] theorem State.reg_transfer (target : Addr) (m : Reg) : (s.transfer target).reg m = s.reg m := rfl
@[simp] theorem State.peek_transfer (target : Addr) (a : Addr) : (s.transfer target).peek a = s.peek a := rfl
@[simp] theorem State.addr16_transfer (target : Addr) : (s.transfer target).addr16 = s.addr16 := rfl
@[simp] theorem State.reg_interrupt (addr : Addr) (m : Reg) : (s.interrupt addr).reg m = s.reg m := rfl
@[simp] theorem State.peek_interrupt (addr : Addr) (a : Addr) : (s.interrupt addr).peek a = s.peek a := rfl
@[simp] theorem State.addr16_interrupt (addr : Addr) : (s.interrupt addr).addr16 = s.addr16 := rfl
@[simp] theorem State.reg_busRead (a : Addr) (m : Reg) : (s.busRead a).2.reg m = s.reg m := rfl
@[simp] theorem State.addr16_busRead (a : Addr) : (s.busRead a).2.addr16 = s.addr16 := rfl
@[simp] theorem State.reg_busWrite (a : Addr) (v : Byte) (m : Reg) : (s.busWrite a v).reg m = s.reg m := rfl
@[simp] theorem State.addr16_busWrite (a : Addr) (v : Byte) : (s.busWrite a v).addr16 = s.addr16 := rfl
@[simp] theorem State.reg_update (c : HostCall) (m : Reg) : (s.update c).reg m = s.reg m := rfl
@[simp] theorem State.addr16_update (c : HostCall) : (s.update c).addr16 = s.addr16 := rfl
@[simp] theorem State.peek_setReg (n : Reg) (v : Byte) (a : Addr) : (s.setReg n v).peek a = s.peek a := rfl
@[simp] theorem State.peek_setAcc (v : Byte) (a : Addr) : (s.setAcc v).peek a = s.peek a := rfl
@[simp] theorem State.peek_setStatus (v : Byte) (a : Addr) : (s.setStatus v).peek a = s.peek a := rfl

/-- Two states with equal registers, `pc`, `sp`, latch and bus are equal. -/
theorem State.ext_reg {s t : State} (hr : ∀ n, t.reg n = s.reg n) (hpc : t.pc = s.pc) (hsp : t.sp = s.sp)
    (hl : t.latch = s.latch) (hb : t.bus = s.bus) : t = s := by
  have hregs : t.regs = s.regs := by
    apply Vector.ext
    intro i hi
    simpa [State.reg, Nat.mod_eq_of_lt hi] using hr (BitVec.ofNat 4 i)
  cases s; cases t; simp_all

end Sys2Proof.Machine
end

