-- ==== Sys2Proof/Laws/Ops.lean ====
section
/-! SUPPORT. The shared operations of the meanings: the push and the pop of a return address, the 16-bit values, the flag
writes, the shifts, the fetch, and the host calls that leave the core alone. -/

namespace Sys2Proof.Machine

/-! ## 16-bit values -/

theorem word16_toNat (hi lo : Byte) : (word16 hi lo).toNat = hi.toNat * 256 + lo.toNat := by
  have h : lo.toNat < 2 ^ 8 := lo.isLt
  rw [word16, BitVec.toNat_append, ← Nat.shiftLeft_add_eq_or_of_lt h, Nat.shiftLeft_eq]

/-- A 16-bit value is made of its own two bytes (R55). -/
@[simp] theorem word16_high_low (v : Addr) : word16 (highByte v) (lowByte v) = v := by
  apply BitVec.eq_of_toNat_eq
  have h : v.toNat < 65536 := v.isLt
  rw [word16_toNat]
  simp only [highByte, lowByte, BitVec.extractLsb'_toNat, Nat.shiftRight_eq_div_pow]
  omega

theorem State.addr16_toNat (s : State) : s.addr16.toNat = (s.reg 1#4).toNat * 256 + (s.reg 2#4).toNat := word16_toNat _ _

/-! ## The program counter -/

/-- The post-step increment, as a number (R30, R100). -/
theorem State.postStep_pc_toNat (s : State) : s.postStep.pc.toNat = (s.pc.toNat + 1) % 65536 := by
  simp [BitVec.toNat_add]

/-- "post-step +1 lands exactly on addr16": a transfer and the increment that follows it (R101, R102). -/
@[simp] theorem State.transfer_postStep_pc (s : State) (target : Addr) : (s.transfer target).postStep.pc = target := by
  simp

/-! ## The stack -/

theorem State.push16_regs (s : State) (v : Addr) : (s.push16 v).regs = s.regs := rfl
@[simp] theorem State.push16_reg (s : State) (v : Addr) (n : Reg) : (s.push16 v).reg n = s.reg n := rfl
@[simp] theorem State.push16_pc (s : State) (v : Addr) : (s.push16 v).pc = s.pc := rfl
@[simp] theorem State.push16_sp (s : State) (v : Addr) : (s.push16 v).sp = s.sp - 2#16 := rfl
@[simp] theorem State.push16_latch (s : State) (v : Addr) : (s.push16 v).latch = s.latch := rfl

/-- The push is two writes, low byte first (R54, R121). -/
theorem State.push16_bus (s : State) (v : Addr) :
    (s.push16 v).bus = (s.bus.write (s.sp - 2#16) (lowByte v)).write (s.sp - 2#16 + 1#16) (highByte v) := rfl

@[simp] theorem State.pop16_reg (s : State) (n : Reg) : s.pop16.2.reg n = s.reg n := rfl
@[simp] theorem State.pop16_pc (s : State) : s.pop16.2.pc = s.pc := rfl
@[simp] theorem State.pop16_sp (s : State) : s.pop16.2.sp = s.sp + 2#16 := rfl
@[simp] theorem State.pop16_latch (s : State) : s.pop16.2.latch = s.latch := rfl

/-- The pop is two reads, `sp` first (R54, R122). -/
theorem State.pop16_bus (s : State) : s.pop16.2.bus = ((s.bus.read s.sp).2.read (s.sp + 1#16)).2 := rfl

theorem State.pop16_value (s : State) :
    s.pop16.1 = word16 ((s.bus.read s.sp).2.read (s.sp + 1#16)).1 (s.bus.read s.sp).1 := rfl

/-! ## Reads and the bus -/

/-- A read off the special set leaves the machine as it was. -/
theorem State.busRead_plain (s : State) (a : Addr) (h : s.bus.dev.special a = false) : (s.busRead a).2 = s := by
  simp [State.busRead, Bus.read_plain _ _ h]

/-- A fetch off the special set leaves the machine as it was. -/
theorem State.fetch_plain (s : State) (h : s.bus.dev.special s.pc = false) : s.fetch = (s.peek s.pc, s) := by
  simp [State.fetch, State.busRead, State.peek, Bus.read_plain _ _ h]

/-- So does a fetch at an address whose read has no side effect. -/
theorem State.fetch_quiet (s : State) (h : s.bus.dev.ReadQuiet s.pc) : s.fetch = (s.peek s.pc, s) := by
  rw [State.fetch, State.busRead, s.bus.read_quiet _ h]; rfl

theorem State.peek_plain (s : State) (a : Addr) (h : s.bus.dev.special a = false) :
    s.peek a = Memory.read s.bus.store a := by simp [State.peek, Bus.read_plain _ _ h]

/-! ## Flags -/

/-- Which bit of the status byte an OV write leaves where (R28). -/
theorem withOv_bit (st : Byte) (ov : Bool) (i : Nat) :
    (withOv st ov).getLsbD i = if i = 1 then ov else st.getLsbD i := by
  by_cases h : i < 8
  · revert st ov; interval_cases i <;> decide
  · have h8 : 8 ≤ i := Nat.le_of_not_lt h
    rw [BitVec.getLsbD_of_ge _ _ h8, BitVec.getLsbD_of_ge _ _ h8, if_neg (by omega)]

@[simp] theorem withOv_ov (st : Byte) (ov : Bool) : (withOv st ov)[1] = ov := by revert st ov; decide
@[simp] theorem withOv_uf (st : Byte) (ov : Bool) : (withOv st ov)[2] = st[2] := by revert st ov; decide
@[simp] theorem withUf_uf (st : Byte) (uf : Bool) : (withUf st uf)[2] = uf := by revert st uf; decide
@[simp] theorem withUf_ov (st : Byte) (uf : Bool) : (withUf st uf)[1] = st[1] := by revert st uf; decide

/-- Which bit of the status byte a UF write leaves where (R28). -/
theorem withUf_bit (st : Byte) (uf : Bool) (i : Nat) :
    (withUf st uf).getLsbD i = if i = 2 then uf else st.getLsbD i := by
  by_cases h : i < 8
  · revert st uf; interval_cases i <;> decide
  · have h8 : 8 ≤ i := Nat.le_of_not_lt h
    rw [BitVec.getLsbD_of_ge _ _ h8, BitVec.getLsbD_of_ge _ _ h8, if_neg (by omega)]

/-! ## Results of the accumulator operations -/

theorem addWrapped_toNat (a b : Byte) : (addWrapped a b).toNat = (a.toNat + b.toNat) % 256 := by simp [addWrapped]

theorem subWrapped_toNat (a b : Byte) : (subWrapped a b).toNat = (a.toNat + 256 - b.toNat) % 256 := by simp [subWrapped]

/-- A left shift by less than 8, as a product (R173). -/
theorem shiftLeft_small (m : ShiftOversize) (a n : Byte) (h : n.toNat < 8) :
    (shiftLeft m a n).toNat = a.toNat * 2 ^ n.toNat % 256 := by simp [shiftLeft, h, Nat.shiftLeft_eq]

/-- A right shift by less than 8, as a quotient (R174). -/
theorem shiftRight_small (m : ShiftOversize) (a n : Byte) (h : n.toNat < 8) :
    (shiftRight m a n).toNat = a.toNat / 2 ^ n.toNat := by simp [shiftRight, h, Nat.shiftRight_eq_div_pow]

/-- CMPGL gives 0xFF exactly if the comparison of its direction holds (R161). -/
theorem compareByDir_eq_ff (dir : Bool) (a b : Byte) :
    compareByDir dir a b = 0xFF#8 ↔ if dir then b.toNat < a.toNat else a.toNat < b.toNat := by
  cases dir <;> simp [compareByDir]

/-- CMPGL gives nothing but 0xFF and 0x00 (R161). -/
theorem compareByDir_values (dir : Bool) (a b : Byte) : compareByDir dir a b = 0xFF#8 ∨ compareByDir dir a b = 0x00#8 := by
  cases dir <;> simp [compareByDir] <;> omega

/-! ## Host calls -/

/-- Every host call but a step, an interrupt and a reset leaves the core as it was (R219, the column of what it touches). -/
theorem hostCall_core (c : HostCall) (s t : State) (h : hostCall c s = .next t) (hs : c ≠ .step) (hm : c.movesCore = false) :
    t.regs = s.regs ∧ t.pc = s.pc ∧ t.sp = s.sp ∧ t.latch = s.latch := by
  cases c
  case step => exact absurd rfl hs
  case reset => cases hm
  case interrupt => cases hm
  case loadRom path rom =>
    simp only [hostCall, loadRom] at h
    split at h
    · injection h with h; subst h; exact ⟨rfl, rfl, rfl, rfl⟩
    · cases h
  all_goals (injection h with h; subst h; exact ⟨rfl, rfl, rfl, rfl⟩)

end Sys2Proof.Machine
end

