-- ==== Sys2Proof/Laws/PerInstr.lean ====
section
/-! SUPPORT. Facts about every instruction as syntax, one lemma per constructor. -/

namespace Sys2Proof.Laws.EncodedRow

/-- The byte of a well-formed instruction other than the literal-data row lies in the row of the opcode map that has the
instruction's mnemonic (R85). -/
def Statement (i : Instr) : Prop :=
  i.wf = true → i.isData = false → (opcodeMap.any fun r => r.mnemonic == i.mnemonic && r.covers (encodeByte i)) = true

theorem lit (n : Reg) : Statement (.lit n) := fun _ _ => by revert n; decide
theorem litData (d : Byte) : Statement (.litData d) := fun _ h => by simp [Instr.isData] at h
theorem jmp : Statement .jmp := fun _ _ => by decide
theorem call : Statement .call := fun _ _ => by decide
theorem ret : Statement .ret := fun _ _ => by decide
theorem halt : Statement .halt := fun _ _ => by decide
theorem rsv1x (f : Reg) : Statement (.rsv1x f) := by unfold Statement; revert f; decide
theorem jnz (n : Reg) : Statement (.jnz n) := fun _ _ => by revert n; decide
theorem get (n : Reg) : Statement (.get n) := fun _ _ => by revert n; decide
theorem put (n : Reg) : Statement (.put n) := fun _ _ => by revert n; decide
theorem load (n : Reg) : Statement (.load n) := fun _ _ => by revert n; decide
theorem store (n : Reg) : Statement (.store n) := fun _ _ => by revert n; decide
theorem cmpeq (n : Reg) : Statement (.cmpeq n) := fun _ _ => by revert n; decide
theorem cmpgl (n : Reg) : Statement (.cmpgl n) := fun _ _ => by revert n; decide
theorem add (n : Reg) : Statement (.add n) := fun _ _ => by revert n; decide
theorem sub (n : Reg) : Statement (.sub n) := fun _ _ => by revert n; decide
theorem shl (n : Reg) : Statement (.shl n) := fun _ _ => by revert n; decide
theorem shr (n : Reg) : Statement (.shr n) := fun _ _ => by revert n; decide
theorem or (n : Reg) : Statement (.or n) := fun _ _ => by revert n; decide
theorem and (n : Reg) : Statement (.and n) := fun _ _ => by revert n; decide
theorem not (n : Reg) : Statement (.not n) := fun _ _ => by revert n; decide

end Sys2Proof.Laws.EncodedRow
end

