-- ==== Sys2Proof/Tests/Slice0.lean ====
section
/-! SUPPORT. Tests whose expected results are the spec's own: its encodings (R85), its worked examples (S1 to S8) and its
derived vectors (V1 to V86), each on a small state; and the witnesses that the hypotheses of the statements can be met. -/

namespace Sys2Proof.Tests

open Sys2Proof Sys2Proof.Machine

/-! ## Helpers -/

/-- The reset state with registers, `pc` and store bytes set: the start states of 95_test_vectors.md. -/
def start (pc : Addr) (regs : List (Reg × Byte)) (mem : List (Addr × Byte)) : State :=
  let s := regs.foldl (fun s p => s.setReg p.1 p.2) { State.reset with pc := pc }
  { s with bus := { s.bus with store := mem.foldl (fun m p => Memory.write m p.1 p.2) [] } }

/-- Whether one step answers a next state with the property. -/
def after (s : State) (p : State → Bool) : Bool :=
  match step s with
  | .next t => p t
  | .fault _ => false
  | .refused _ => false

/-- Whether a sequence of host calls answers a next state with the property. -/
def afterCalls (cs : List HostCall) (s : State) (p : State → Bool) : Bool :=
  match hostCalls cs s with
  | .next t => p t
  | .fault _ => false
  | .refused _ => false

/-! ## Well-formedness: an ill-formed term for the one check -/

theorem test_wf_refuses_reserved_codes_0_to_3 :
    [Instr.rsv1x 0, .rsv1x 1, .rsv1x 2, .rsv1x 3].all (fun i => !i.wf) = true := by decide
theorem test_wf_takes_reserved_code_4 : (Instr.rsv1x 4).wf = true := by decide

/-! ## Decoding: words written out bit by bit from R85 and the Encoding line of each rule -/

theorem test_decode_lit : decodeByte false 0b0000_0101 = .lit 5 := by decide
theorem test_decode_litData : decodeByte true 0b0000_0101 = .litData 0x05 := by decide
theorem test_decode_jmp : decodeByte false 0b0001_0000 = .jmp := by decide
theorem test_decode_call : decodeByte false 0b0001_0001 = .call := by decide
theorem test_decode_ret : decodeByte false 0b0001_0010 = .ret := by decide
theorem test_decode_halt : decodeByte false 0b0001_0011 = .halt := by decide
theorem test_decode_rsv1x : decodeByte false 0b0001_0100 = .rsv1x 4 := by decide
theorem test_decode_jnz : decodeByte false 0b0010_0011 = .jnz 3 := by decide
theorem test_decode_get : decodeByte false 0b0011_0111 = .get 7 := by decide
theorem test_decode_put : decodeByte false 0b0100_1111 = .put 15 := by decide
theorem test_decode_load : decodeByte false 0b0101_0101 = .load 5 := by decide
theorem test_decode_store : decodeByte false 0b0110_0001 = .store 1 := by decide
theorem test_decode_cmpeq : decodeByte false 0b0111_0100 = .cmpeq 4 := by decide
theorem test_decode_cmpgl : decodeByte false 0b1000_0100 = .cmpgl 4 := by decide
theorem test_decode_add : decodeByte false 0b1001_0011 = .add 3 := by decide
theorem test_decode_sub : decodeByte false 0b1010_0011 = .sub 3 := by decide
theorem test_decode_shl : decodeByte false 0b1011_0100 = .shl 4 := by decide
theorem test_decode_shr : decodeByte false 0b1100_0100 = .shr 4 := by decide
theorem test_decode_or : decodeByte false 0b1101_0100 = .or 4 := by decide
theorem test_decode_and : decodeByte false 0b1110_0100 = .and 4 := by decide
theorem test_decode_not : decodeByte false 0b1111_0101 = .not 5 := by decide
theorem test_decode_no_byte : decode false [] = .error .noByte := by decide
theorem test_length_of_lit : instrLength 0x0F = 2 ∧ instrLength 0x10 = 1 := by decide
theorem test_table_word_sub_r10 : decodeTableWord 8 0xAA = some (.sub 10) := by decide

/-! ## The literal latch -/

/-- V1. -/
theorem test_lit_arms : after (start 0x0100 [] [(0x0100, 0x05)])
    (fun t => t.latch == ⟨true, 5⟩ && t.pc == 0x0101 && t.regs == State.reset.regs) = true := by decide
/-- V6: a data byte that spells CALL is stored, nothing is pushed. -/
theorem test_litData_verbatim :
    after ((start 0x0101 [(1, 0x20)] [(0x0101, 0x11)]).arm 2)
      (fun t => t.reg 2 == 0x11 && t.sp == 0x0400 && t.pc == 0x0102 && !t.latch.armed) = true := by decide
/-- V5: the data byte replaces all of x[3]. -/
theorem test_litData_status : after ((start 0x0100 [(3, 0x06)] [(0x0100, 0x01)]).arm 3)
    (fun t => t.reg 3 == 0x01) = true := by decide

/-! ## Control transfer -/

/-- V10: the target 0 wraps. -/
theorem test_jmp_zero : after (start 0x0105 [] [(0x0105, 0x10)]) (fun t => t.pc == 0x0000) = true := by decide
/-- V11. -/
theorem test_jmp_from_top : after (start 0xFFFF [(1, 0x12), (2, 0x34)] [(0xFFFF, 0x10)]) (fun t => t.pc == 0x1234) = true := by
  decide
/-- V13: the second stack address wraps to 0. -/
theorem test_call_wraps :
    after ((start 0x1234 [(1, 0x05)] [(0x1234, 0x11)]).setSp 0x0001)
      (fun t => t.peek 0xFFFF == 0x34 && t.peek 0x0000 == 0x12 && t.sp == 0xFFFF && t.pc == 0x0500) = true := by decide
/-- S5, first step. -/
theorem test_call_example : after (start 0x0200 [(1, 0x03)] [(0x0200, 0x11)])
    (fun t => t.peek 0x03FE == 0x00 && t.peek 0x03FF == 0x02 && t.sp == 0x03FE && t.pc == 0x0300) = true := by decide
/-- V16. -/
theorem test_ret_wraps :
    after ((start 0x0100 [] [(0x0100, 0x12), (0xFFFF, 0x34), (0x0000, 0x12)]).setSp 0xFFFF)
      (fun t => t.sp == 0x0001 && t.pc == 0x1235) = true := by decide
/-- V17: the popped 0xFFFF plus 1 is 0. -/
theorem test_ret_to_zero :
    after ((start 0x0100 [] [(0x0100, 0x12), (0x03FE, 0xFF), (0x03FF, 0xFF)]).setSp 0x03FE)
      (fun t => t.sp == 0x0400 && t.pc == 0x0000) = true := by decide
/-- V20, V19. -/
theorem test_halt_stays : after (start 0x0000 [] [(0x0000, 0x13)]) (fun t => decide (t = start 0x0000 [] [(0x0000, 0x13)])) = true := by
  decide
/-- V21: the other reading of byte 0x13. -/
theorem test_halt13_advances : haltPc true 0x0105 + 1 = 0x0106 := by decide
/-- V22. -/
theorem test_reserved_advances : after (start 0x0100 [] [(0x0100, 0x1F)])
    (fun t => decide (t = { start 0x0100 [] [(0x0100, 0x1F)] with pc := 0x0101 })) = true := by decide
/-- V23: JNZ r3 tests the whole status byte. -/
theorem test_jnz_status : after (start 0x0100 [(3, 0x04), (1, 0x02)] [(0x0100, 0x23)]) (fun t => t.pc == 0x0200) = true := by
  decide
/-- V26: not taken, and `pc` wraps. -/
theorem test_jnz_not_taken : after (start 0xFFFF [] [(0xFFFF, 0x24)]) (fun t => t.pc == 0x0000) = true := by decide

/-! ## Moves, LOAD and STORE -/

/-- S1. -/
theorem test_get : after (start 0x0100 [(0, 0x11), (7, 0xA5)] [(0x0100, 0x37)])
    (fun t => t.reg 0 == 0xA5 && t.reg 7 == 0xA5 && t.pc == 0x0101) = true := by decide
/-- V32. -/
theorem test_put_status : after (start 0x0100 [(0, 0x01), (3, 0x06)] [(0x0100, 0x43)]) (fun t => t.reg 3 == 0x01) = true := by
  decide
/-- V35: the address is taken before the write. -/
theorem test_load_r1 : after (start 0x0100 [(1, 0x20)] [(0x0100, 0x51), (0x2000, 0x30)])
    (fun t => t.reg 1 == 0x30 && t.addr16 == 0x3000) = true := by decide
/-- V36: LOAD of its own byte. -/
theorem test_load_own_byte : after (start 0x0100 [(1, 0x01)] [(0x0100, 0x57)]) (fun t => t.reg 7 == 0x57) = true := by decide
/-- V38. -/
theorem test_store_r1 : after (start 0x0100 [(1, 0x20)] [(0x0100, 0x61)]) (fun t => t.peek 0x2000 == 0x20) = true := by decide
/-- V39: the next step fetches the stored byte. -/
theorem test_store_next_byte :
    after (start 0x0100 [(1, 0x01), (2, 0x01), (0, 0x13)] [(0x0100, 0x60), (0x0101, 0x9F)])
      (fun t => t.fetch.1 == 0x13 && after t (fun u => u.pc == 0x0101)) = true := by decide

/-! ## Compare -/

/-- V40 and V41. -/
theorem test_cmpeq : after (start 0x0100 [(0, 0x42), (4, 0x42)] [(0x0100, 0x74)]) (fun t => t.reg 0 == 0x01) = true ∧
    after (start 0x0100 [(0, 0x42), (4, 0x43)] [(0x0100, 0x74)]) (fun t => t.reg 0 == 0x00) = true := by decide
/-- V45: less-than is unsigned. -/
theorem test_cmpgl_less : after (start 0x0100 [(0, 0x7F), (4, 0x80)] [(0x0100, 0x84)]) (fun t => t.reg 0 == 0xFF) = true := by
  decide
/-- V48: the direction bit is in the operand. -/
theorem test_cmpgl_status : after (start 0x0100 [(3, 0x01), (0, 0x05)] [(0x0100, 0x83)]) (fun t => t.reg 0 == 0xFF) = true := by
  decide

/-! ## Arithmetic and logic -/

/-- V53: the status byte is the operand, then takes OV. -/
theorem test_add_status : after (start 0x0100 [(0, 0xFF), (3, 0x01)] [(0x0100, 0x93)])
    (fun t => t.reg 0 == 0x00 && t.reg 3 == 0x03) = true := by decide
/-- V54: OV cleared, UF and DIR kept. -/
theorem test_add_clears_ov : after (start 0x0100 [(0, 0x01), (4, 0x01), (3, 0x07)] [(0x0100, 0x94)])
    (fun t => t.reg 0 == 0x02 && t.reg 3 == 0x05) = true := by decide
/-- V57. -/
theorem test_sub_underflows : after (start 0x0100 [(0, 0x02), (4, 0x05), (3, 0x02)] [(0x0100, 0xA4)])
    (fun t => t.reg 0 == 0xFD && t.reg 3 == 0x06) = true := by decide
/-- V58. -/
theorem test_sub_status : after (start 0x0100 [(0, 0x01), (3, 0x04)] [(0x0100, 0xA3)])
    (fun t => t.reg 0 == 0xFD && t.reg 3 == 0x04) = true := by decide
/-- V64: SHL r0 shifts the accumulator by itself. -/
theorem test_shl_by_itself : after (start 0x0100 [(0, 0x03)] [(0x0100, 0xB0)]) (fun t => t.reg 0 == 0x18) = true := by decide
/-- V62, V63, both values of the parameter. -/
theorem test_shl_oversize : shiftLeft .zero 0x81 8 = 0x00 ∧ shiftLeft .mod8 0x81 8 = 0x81 ∧ shiftLeft .mod8 0x81 9 = 0x02 := by
  decide
/-- V65: logical. -/
theorem test_shr_logical : after (start 0x0100 [(0, 0x81), (4, 1)] [(0x0100, 0xC4)]) (fun t => t.reg 0 == 0x40) = true := by
  decide
/-- V67, both values of the parameter. -/
theorem test_shr_oversize : shiftRight .zero 0x81 9 = 0x00 ∧ shiftRight .mod8 0x81 9 = 0x40 := by decide
/-- V69, and V73 for the status. -/
theorem test_or : after (start 0x0100 [(0, 0x0F), (4, 0xF0), (3, 0x07)] [(0x0100, 0xD4)])
    (fun t => t.reg 0 == 0xFF && t.reg 3 == 0x07) = true := by decide
/-- V70. -/
theorem test_and : after (start 0x0100 [(0, 0x3C), (4, 0x0F)] [(0x0100, 0xE4)]) (fun t => t.reg 0 == 0x0C) = true := by decide
/-- V71. -/
theorem test_not : after (start 0x0100 [(5, 0x0F), (0, 0x99)] [(0x0100, 0xF5)])
    (fun t => t.reg 0 == 0xF0 && t.reg 5 == 0x0F) = true := by decide

/-! ## Interrupt, reset, launch -/

/-- V7, P8: an armed latch consumes the byte at the interrupt's address. -/
theorem test_interrupt_armed :
    afterCalls [.interrupt 0x0300, .step] ((start 0x0100 [] [(0x0300, 0x11)]).arm 7)
      (fun t => t.reg 7 == 0x11 && t.pc == 0x0301 && t.sp == 0x0400) = true := by decide
/-- V81. -/
theorem test_two_interrupts : afterCalls [.interrupt 0x0300, .interrupt 0x0400] State.reset (fun t => t.pc == 0x0400) = true := by
  decide
/-- V82, S8. -/
theorem test_reset_keeps_memory : afterCalls [.reset] ((start 0x1234 [(9, 0x77)] [(0x2000, 0x5A)]).arm 3)
    (fun t => decide (t = { State.reset with bus := t.bus }) && t.peek 0x2000 == 0x5A) = true := by decide
/-- The source of P1, launched and run to its HALT: five steps. -/
theorem test_p1_image : assemble [.org 0x0100, .lit 0 (.num 0xFA), .lit 4 (.num 0x0A), .op (.add 4), .op .halt] =
    .ok [(0x0100, 0x00), (0x0101, 0xFA), (0x0102, 0x04), (0x0103, 0x0A), (0x0104, 0x94), (0x0105, 0x13)] := by decide
/-- P3: a label and SETA. -/
theorem test_p3_label : (assemble [.org 0x0104, .seta (.label "loop"), .label "loop", .op (.jnz 0)]).toOption =
    some [(0x0104, 0x01), (0x0105, 0x01), (0x0106, 0x02), (0x0107, 0x08), (0x0108, 0x20)] := by decide
/-- R89. -/
theorem test_disassemble : (disassemble [0x05, 0x12, 0x84, 0x1F, 0x13]).map AsmLine.text =
    ["LIT r5, 0x12", "CMPGL r4", ".byte 0x1F", "HALT"] := by decide
/-- R88: the assembler refuses JNZI r1. -/
theorem test_jnzi_refused : assemble [.jnzi 1 (.num 0x0300)] = .error (.jnziClobbersOperand 1) := by decide

/-! ## Devices -/

/-- A Button+LED device with chosen parameters. -/
def buttonLed (pressed : Bool) : Device :=
  .buttonLed { pressedByte := 0xB1, releasedByte := 0xB0, buttonStores := true, led := 0, pressed := pressed }
/-- A Command/controller device with chosen parameters. -/
def commandDevice : Command where
  params :=
    { trigger := { addr := 0x0080, alsoStores := true, readBack := .store }, inputAddr := 0x0081, inputBits := [0, 1, 1],
      inputInvert := 0, inputStores := false }
  wbuf := Vector.replicate 128 0xBB
  rbuf := Vector.replicate 128 0xAA
  inputs := [false, true, true]
/-- A row-select Text display of 2 rows of 3 cells. -/
def rowDisplay : TextDisplay where
  params :=
    { rows := 2, cols := 3,
      variant := .rowSelect { addr := 0x3000, alsoStores := true, readBack := .store } 0x2000 [(0, 0), (1, 1)],
      keyAddr := 0x3001, keySentinel := 0xFF, keyConsume := true, keyStores := false }
  grid := [[0, 0, 0], [0, 0, 0]]
  key := some 0x41
  char := 0
  curX := 0
  curY := 0
/-- A cell-addressed Text display of 2 rows of 3 cells, with the cursor at column 2 of row 1. -/
def cellDisplay : TextDisplay :=
  { rowDisplay with
    params :=
      { rowDisplay.params with
        variant :=
          .cell { addr := 0x3002, alsoStores := false, readBack := .anyValue } { addr := 0x3003, alsoStores := false, readBack := .byte 0 }
            { addr := 0x3004, alsoStores := false, readBack := .byte 0 } true false false },
    curX := 2, curY := 1 }
/-- A state with the device. -/
def withDevice (s : State) (d : Device) : State := { s with bus := { s.bus with dev := d } }

/-- V83. -/
theorem test_led : after (withDevice (start 0x0100 [(0, 0x5A)] [(0x0100, 0x60)]) (buttonLed false))
    (fun t => t.view == .led 0x5A && t.peek 0 == 0x5A) = true := by decide
/-- V84. -/
theorem test_button : after (withDevice (start 0x0100 [(2, 1)] [(0x0100, 0x56)]) (buttonLed true)) (fun t => t.reg 6 == 0xB1) = true := by
  decide
/-- V86. -/
theorem test_window : after (withDevice (start 0x0100 [(2, 5)] [(0x0100, 0x57)]) (.command commandDevice))
    (fun t => t.reg 7 == 0xAA) = true := by decide
/-- R218, I12: two inputs on one bit. -/
theorem test_inputs : after (withDevice (start 0x0100 [(2, 0x81)] [(0x0100, 0x57)]) (.command commandDevice))
    (fun t => t.reg 7 == 0x02) = true := by decide
/-- R217: the slice goes into row 1. -/
theorem test_row_snapshot :
    after (withDevice (start 0x0100 [(1, 0x30), (5, 1)] [(0x0100, 0x65), (0x2000, 7), (0x2001, 8), (0x2002, 9)]) (.textDisplay rowDisplay))
      (fun t => t.view == .grid [[0, 0, 0], [7, 8, 9]]) = true := by decide
/-- R217: one cell. -/
theorem test_cell : after (withDevice (start 0x0100 [(1, 0x30), (2, 0x02), (5, 0x41)] [(0x0100, 0x65)]) (.textDisplay cellDisplay))
    (fun t => t.view == .grid [[0, 0, 0], [0, 0, 0x41]]) = true := by decide
/-- R217, D21: the key read, consumed here, so that the next read gives the sentinel. -/
theorem test_key : after (withDevice (start 0x0100 [(1, 0x30), (2, 0x01)] [(0x0100, 0x55)]) (.textDisplay rowDisplay))
    (fun t => t.reg 5 == 0x41 && t.peek 0x3001 == 0xFF) = true := by decide

/-! ## Witnesses: concrete states and operands that meet the hypotheses of the statements -/

theorem witness_DecodeOfEncode : (Instr.rsv1x 4).wf = true ∧ (Instr.litData 0x12).wf = true := by decide
theorem witness_StepRunsTheDecodedInstruction :
    let s := start 0x0100 [] [(0x0100, 0x94)]
    decodeByte s.latch.armed (s.peek s.pc) = .add 4 ∧ s.bus.dev.special s.pc = false := by decide
theorem witness_LiteralRoundTrip :
    let s := start 0xFFFF [] [(0xFFFF, 0x05), (0x0000, 0x77)]
    s.latch.armed = false ∧ s.bus.dev.special s.pc = false ∧ s.bus.dev.special (s.pc + 1#16) = false ∧
    s.peek s.pc = BitVec.ofNat 8 (5#4).toNat ∧ s.peek (s.pc + 1#16) = 0x77 := by decide
theorem witness_LatchAfterAStep :
    after (start 0x0100 [] [(0x0100, 0x0F)]) (fun t => t.latch.armed) = true ∧
    after ((start 0x0100 [] [(0x0100, 0x10)]).arm 4) (fun t => !t.latch.armed) = true ∧
    after (start 0x0100 [] [(0x0100, 0x10)]) (fun t => !t.latch.armed) = true := by decide
theorem witness_CallPushesItsOwnAddress_and_CallThenRetReturns :
    let s := (start 0x1234 [] []).setSp 0x0001
    s.bus.dev.special (s.sp - 2#16) = false ∧ s.bus.dev.special (s.sp - 2#16 + 1#16) = false := by decide
/-- The second part of CallThenRetReturns: the state the CALL leaves is such a `u`. -/
theorem witness_CallThenRetReturns_next (s : State) : ∃ t u : State, exec .call s = .next t ∧ u.sp = t.sp ∧ u.bus = t.bus :=
  ⟨_, _, rfl, rfl, rfl⟩
theorem witness_RetPopsAndAddsOne :
    let s := (withDevice State.reset (buttonLed true)).setSp 0xFFFE
    s.bus.dev.special s.sp = false ∧ s.bus.dev.special (s.sp + 1#16) = false := by decide
/-- Halted at a plain address, with a driver that goes on stepping, updating an input and reading the bus. -/
theorem witness_HaltedMachineStaysPut :
    let s := start 0x0105 [] [(0x0105, 0x13)]
    s.HaltedRun [.step, .button true, .busRead 0x0105, .step] ∧
    (∀ c ∈ [HostCall.step, .button true, .busRead 0x0105, .step], c.movesCore = false) ∧
    [HostCall.step, .button true, .busRead 0x0105, .step] = [.step, .button true] ++ [.busRead 0x0105, .step] ∧
    ∃ t, hostCalls [.step, .button true] s = .next t := by
  refine ⟨⟨⟨by decide, Device.readQuiet_plain _ _ (by decide), by decide⟩, ?_⟩, by decide, rfl, ⟨_, rfl⟩⟩
  simp only [NoneChanges]
  refine fun t h => ⟨?_, fun u k => ⟨?_, fun v l => ⟨?_, fun w m => ⟨?_, trivial⟩⟩⟩⟩ <;>
    (injection h with h; subst h) <;> (first | (injection k with k; subst k) | skip) <;>
    (first | (injection l with l; subst l) | skip) <;> (first | (injection m with m; subst m) | skip) <;> decide
/-- Halted at special addresses whose read has no side effect, the LED byte's and the window's; and such an address among the
write-only ones, with a fixed byte as its read-back. -/
theorem witness_Halted_at_special_addresses :
    (withDevice (start 0x0000 [] [(0x0000, 0x13)]) (buttonLed true)).Halted ∧
    ({ State.reset with pc := 0x0005, bus := { State.reset.bus with
      dev := .command { commandDevice with rbuf := Vector.replicate 128 0x13 } } } : State).Halted ∧
    ({ withDevice State.reset (.textDisplay cellDisplay) with pc := 0x3003 } : State).bus.dev.ReadQuiet 0x3003 := by
  refine ⟨⟨by decide, Device.readQuiet_buttonLed _ _, by decide⟩, ⟨by decide, Device.readQuiet_command _ _ ?_, by decide⟩,
    Device.readQuiet_textDisplay _ _ (by decide) (by decide)⟩
  decide
theorem witness_ReservedCodesOnlyAdvance : 4 ≤ (4#4).toNat ∧ 4 ≤ (15#4).toNat := by decide
theorem witness_JnzBranchesOnNonzero :
    let s := start 0 [(4, 1)] []
    (s.reg 4#4).toNat ≠ 0 ∧ (s.reg 5#4).toNat = 0 := by decide
theorem witness_plain_address_pair :
    let s := withDevice (start 0 [(1, 0x00), (2, 0x82)] []) (.command commandDevice)
    s.bus.dev.special s.addr16 = false := by decide
theorem witness_StoredByteIsFetchedNext :
    let s := start 0x0100 [(1, 0x01), (2, 0x01)] []
    s.addr16 = s.pc + 1#16 ∧ s.bus.dev.special (s.pc + 1#16) = false := by decide
theorem witness_CmpeqGivesOneOrZero :
    let s := start 0 [(4, 1)] []
    s.reg 0#4 = s.reg 0#4 ∧ s.reg 0#4 ≠ s.reg 4#4 := by decide
theorem witness_directions : (start 0 [(3, 0x01)] []).reg 3#4 = 1 ∧ ((start 0 [(3, 0x01)] []).reg 3#4).getLsbD 0 = true ∧
    (State.reset.reg 3#4).getLsbD 0 = false := by decide
theorem witness_shift_amounts :
    let s := start 0 [(4, 7), (5, 8)] []
    (s.reg 4#4).toNat < 8 ∧ 8 ≤ (s.reg 5#4).toNat := by decide
theorem witness_StatusBitWriters :
    ∃ t, exec (.litData 0x41) (State.reset.arm 4#4) = .next t ∧ Instr.litData 0x41 ≠ .put 3#4 ∧
      Instr.litData 0x41 ≠ .load 3#4 ∧ ((Instr.litData 0x41).isData = true → (State.reset.arm 4#4).latch.target ≠ 3#4) ∧
      (∀ n, Instr.litData 0x41 ≠ .add n) ∧ ∀ n, Instr.litData 0x41 ≠ .sub n :=
  ⟨_, rfl, by decide, by decide, fun _ => by decide, by simp, by simp⟩
theorem witness_StoreWriters : ∃ t, exec (.store 5#4) State.reset = .next t ∧ (0x0001#16 : Addr) ≠ State.reset.addr16 :=
  ⟨_, rfl, by decide⟩
theorem witness_StoreWriters_call : ∃ t, exec .call State.reset = .next t ∧
    ((0x0400#16 : Addr) ≠ State.reset.sp - 2#16 ∧ (0x0400#16 : Addr) ≠ State.reset.sp - 2#16 + 1#16) := ⟨_, rfl, by decide⟩
theorem witness_PlainAddressIsTheStore :
    Device.special .ramOnly 0 = false ∧ (buttonLed true).special 2 = false ∧
    (Device.textDisplay rowDisplay).special 0x2000 = false ∧ (Device.command commandDevice).special 0x0082 = false ∧
    (0x0083#16 : Addr) ≠ 0x0082#16 := by decide
theorem witness_ButtonLedTable : (withDevice State.reset (buttonLed true)).bus.dev = buttonLed true ∧
    (2#16 : Addr) ≠ 0#16 ∧ (2#16 : Addr) ≠ 1#16 := by decide
theorem witness_CommandBuffersSwap : (withDevice State.reset (.command commandDevice)).bus.dev = .command commandDevice ∧
    128 ≤ commandDevice.params.trigger.addr.toNat := ⟨rfl, by decide⟩
theorem witness_RowSelectTakesASnapshot :
    let row : WriteOnly := { addr := 0x3000, alsoStores := true, readBack := .store }
    (withDevice State.reset (.textDisplay rowDisplay)).bus.dev = .textDisplay rowDisplay ∧
    rowDisplay.params.variant = .rowSelect row 0x2000 [(0, 0), (1, 1)] ∧ row.addr ≠ rowDisplay.params.keyAddr ∧
    List.lookup (1 : Byte) [((0 : Byte), 0), (1, 1)] = some 1 ∧ 1 < rowDisplay.grid.length ∧ (0x2000 : Addr) ≠ row.addr := by decide
/-- All three writes of the cell-addressed display, with the cursor in the grid after each. -/
theorem witness_CellWriteUpdatesOneCell :
    let char : WriteOnly := { addr := 0x3002, alsoStores := false, readBack := .anyValue }
    let other : Addr → WriteOnly := fun a => { addr := a, alsoStores := false, readBack := .byte 0 }
    cellDisplay.params.variant = .cell char (other 0x3003) (other 0x3004) true false false ∧
    (cellDisplay.params.keyAddr :: cellDisplay.params.variant.writeOnly.map (fun w => w.addr)).Nodup ∧
    (other 0x3003, false, { cellDisplay with curX := 1 }) ∈ [(char, true, { cellDisplay with char := 1 }),
      (other 0x3003, false, { cellDisplay with curX := 1 }), (other 0x3004, false, { cellDisplay with curY := 1 })] ∧
    cellDisplay.grid[cellDisplay.curY.toNat]? = some [0, 0, 0] ∧
    cellDisplay.curX.toNat < [(0 : Byte), 0, 0].length := by decide
/-- A display on which a cursor-x write is the trigger: it sets the cell under the new cursor. -/
theorem witness_CellWriteUpdatesOneCell_cursor :
    let w : Addr → WriteOnly := fun a => { addr := a, alsoStores := false, readBack := .byte 0 }
    let d : TextDisplay := { cellDisplay with
      params := { cellDisplay.params with variant := .cell (w 0x3002) (w 0x3003) (w 0x3004) false true false }, char := 0x41 }
    d.params.Distinct ∧ (withDevice State.reset (.textDisplay d)).busWrite 0x3003 1 =
      withDevice State.reset (.textDisplay { d with curX := 1, grid := [[0, 0, 0], [0, 0x41, 0]] }) := by
  refine ⟨?_, by decide⟩
  unfold TextParams.Distinct; decide
theorem witness_KeyAddressReads : rowDisplay.key = some 0x41 ∧ rowDisplay.params.keyConsume = true ∧
    { rowDisplay with key := none }.key = none ∧
    { rowDisplay.params with keyConsume := false }.keyConsume = false := by decide
theorem witness_InputUpdatesAreRead :
    (withDevice State.reset (buttonLed false)).bus.dev = buttonLed false ∧
    (withDevice State.reset (.textDisplay rowDisplay)).bus.dev = .textDisplay rowDisplay ∧
    (withDevice State.reset (.command commandDevice)).bus.dev = .command commandDevice ∧ commandDevice.params.Distinct := by
  refine ⟨rfl, rfl, rfl, ?_⟩
  unfold CommandParams.Distinct; decide
theorem witness_DeviceParametersAreFixed :
    afterCalls [.interrupt 0x0100, .step, .key none] (withDevice (start 0 [] [(0x0100, 0x10)]) (.textDisplay rowDisplay))
      (fun _ => true) = true := by decide
theorem witness_ArmedLatchSurvivesInterrupt : (State.reset.arm 7).latch.armed = true ∧
    (State.reset.arm 7).bus.dev.special 0x0300 = false := by decide
theorem witness_LaunchPlacesTheRom : [(0x13 : Byte)].length ≤ 65536 ∧ [(0x13 : Byte)][0]? = some 0x13 ∧
    [(0x13 : Byte)].length ≤ (1#16).toNat := by decide
/-- The longest image that is loaded and the shortest that is refused. -/
theorem witness_LaunchPlacesTheRom_edges :
    (List.replicate 65536 (0 : Byte)).length ≤ 65536 ∧ 65536 < (List.replicate 65537 (0 : Byte)).length := by
  rw [List.length_replicate, List.length_replicate]; omega
theorem witness_PlacedWordRunsNext : decodeTableWord 8 0x94 = some (.add 4) := by decide
theorem witness_StepKeepsTheInvariant : (start 0x0100 [] [(0x0100, 0x94)]).Inv ∧
    after (start 0x0100 [] [(0x0100, 0x94)]) (fun _ => true) = true := by
  refine ⟨⟨by decide, trivial⟩, by decide⟩
theorem witness_HostCallsKeepTheInvariant_calls :
    let s := withDevice (start 0 [] [(0x0100, 0x10)]) (.textDisplay rowDisplay)
    s.Inv ∧ afterCalls [.interrupt 0x0100, .step, .key none] s (fun _ => true) = true := by
  refine ⟨⟨by decide, ?_, ?_⟩, by decide⟩
  · unfold TextParams.Distinct; decide
  · unfold TextDisplay.GridWf; decide
/-- A well-formed device of each kind with special addresses, in a launch that answers. -/
theorem witness_HostCallsKeepTheInvariant :
    (Device.textDisplay cellDisplay).Wf ∧ (Device.textDisplay rowDisplay).Wf ∧ (Device.command commandDevice).Wf ∧
    ∃ t, launch (.command commandDevice) .bus [0x13] = .next t := by
  refine ⟨⟨?_, ?_⟩, ⟨?_, ?_⟩, ?_, ⟨_, rfl⟩⟩
  · unfold TextParams.Distinct; decide
  · unfold TextDisplay.GridWf; decide
  · unfold TextParams.Distinct; decide
  · unfold TextDisplay.GridWf; decide
  · show CommandParams.Distinct _
    unfold CommandParams.Distinct; decide
theorem witness_PseudoInstructionBytes : (3#4 ≠ 1#4 ∧ 3#4 ≠ 2#4) ∧ (2#4 = 1#4 ∨ 2#4 = 2#4) := by decide
theorem witness_DisassembleOfLines : ∀ l ∈ [AsmLine.lit 5 0x12, AsmLine.op (.add 4), AsmLine.op .halt], l.Plain := by
  simp [AsmLine.Plain, Instr.wf, Instr.isData]

end Sys2Proof.Tests
end

/-! Proofs of the statements about the core's own state (10_state.md): which registers, which bits of the status register
and which stack pointer each instruction leaves (R25, R27, R28, R31), the address pair (R21) and the reset values (R36). -/

namespace Sys2Proof.Machine

/-! ## Frames of the register file -/

section RegisterFrames

variable {s t : State} {ds : List Reg}

theorem RegsKeptBut.of_reg_eq (h : ∀ r, t.reg r = s.reg r) : RegsKeptBut ds s t := fun r _ => h r

theorem RegsKeptBut.postStep (h : RegsKeptBut ds s t) : RegsKeptBut ds s t.postStep := h

theorem RegsKeptBut.disarm (h : RegsKeptBut ds s t) : RegsKeptBut ds s t.disarm := h

theorem RegsKeptBut.setReg (h : RegsKeptBut ds s t) {n : Reg} (hn : n ∈ ds) (v : Byte) :
    RegsKeptBut ds s (t.setReg n v) := fun r hr => by
  have hne : r ≠ n := fun e => hr (e ▸ hn)
  rw [State.reg_setReg_ne _ _ _ _ hne, h r hr]

/-- The accumulator operations write `x[0]` and nothing else in the register file (R23). -/
theorem regsKeptBut_setAcc_postStep (s : State) (v : Byte) : RegsKeptBut [0#4] s (s.setAcc v).postStep :=
  ((RegsKeptBut.of_reg_eq fun _ => rfl).setReg (by decide) v).postStep

/-- ADD and SUB write a flag into `x[3]`, then the result into `x[0]` (R171, R172). -/
theorem regsKeptBut_setStatus_setAcc_postStep (s : State) (st v : Byte) :
    RegsKeptBut [0#4, 3#4] s ((s.setStatus st).setAcc v).postStep :=
  (((RegsKeptBut.of_reg_eq fun _ => rfl).setReg (by decide) st).setReg (by decide) v).postStep

end RegisterFrames

/-- JNZ, taken or not, changes `pc` only (R125). -/
theorem exec_jnz_eq_setPc (n : Reg) (s : State) : ∃ v : Addr, exec (.jnz n) s = .next (s.setPc v) := by
  by_cases hz : s.reg n = 0#8
  · exact ⟨s.pc + 1#16, by simp [exec, execJnz, hz, State.postStep]⟩
  · exact ⟨s.addr16 - 1#16 + 1#16, by simp [exec, execJnz, hz, State.postStep, State.transfer, State.setPc]⟩

/-! ## Which registers an instruction writes -/

/-- Settles O37: one frame per way to write the register file, by the rows of the table of R25. -/
theorem registerWriters : Obligations.RegisterWriters := by
  intro i s
  cases i with
  | litData d =>
    exact ⟨_, rfl, ((RegsKeptBut.of_reg_eq fun _ => rfl).setReg (List.mem_singleton_self _) d).disarm.postStep⟩
  | put n | load n => exact ⟨_, rfl, ((RegsKeptBut.of_reg_eq fun _ => rfl).setReg (List.mem_singleton_self _) _).postStep⟩
  | get n | cmpeq n | cmpgl n | shl n | shr n | or n | and n | not n =>
    exact ⟨_, rfl, regsKeptBut_setAcc_postStep _ _⟩
  | add n | sub n => exact ⟨_, rfl, regsKeptBut_setStatus_setAcc_postStep _ _ _⟩
  | lit n | jmp | call | ret | halt | rsv1x f | store n => exact ⟨_, rfl, .of_reg_eq fun _ => rfl⟩
  | jnz n =>
    obtain ⟨v, hv⟩ := exec_jnz_eq_setPc n s
    exact ⟨_, hv, .of_reg_eq fun _ => rfl⟩

/-! ## The status register -/

section StatusRegister

variable {i : Instr} {s t : State} {n : Reg}

/-- ADD's write of `x[0]` leaves its flag write of `x[3]` in place (R171). -/
theorem exec_add_status (h : exec (.add n) s = .next t) :
    t.reg 3#4 = withOv (s.reg 3#4) (addOverflows s.acc (s.reg n)) := by
  obtain rfl := Host.Outcome.next.inj h
  simp [State.reg_setAcc, State.reg_setStatus]

/-- SUB's write of `x[0]` leaves its flag write of `x[3]` in place (R172). -/
theorem exec_sub_status (h : exec (.sub n) s = .next t) :
    t.reg 3#4 = withUf (s.reg 3#4) (subUnderflows s.acc (s.reg n)) := by
  obtain rfl := Host.Outcome.next.inj h
  simp [State.reg_setAcc, State.reg_setStatus]

/-- Besides the whole-register writes of `x[3]`, ADD and SUB, no row of R25 lists register 3 (R27, R179). -/
theorem exec_keeps_status (h : exec i s = .next t) (hput : i ≠ .put 3#4) (hload : i ≠ .load 3#4)
    (hdata : i.isData = true → s.latch.target ≠ 3#4) (hadd : ∀ n, i ≠ .add n) (hsub : ∀ n, i ≠ .sub n) :
    t.reg 3#4 = s.reg 3#4 := by
  obtain ⟨u, hu, hkept⟩ := registerWriters i s
  obtain rfl : u = t := Host.Outcome.next.inj (hu.symm.trans h)
  apply hkept
  cases i with
  | litData d => simpa [eq_comm] using hdata rfl
  | put n => simpa [eq_comm] using hput
  | load n => simpa [eq_comm] using hload
  | add n => exact absurd rfl (hadd n)
  | sub n => exact absurd rfl (hsub n)
  | _ => simp

end StatusRegister

/-- Settles O38: ADD and SUB by the bits their flag writes keep, every other instruction since it keeps `x[3]` whole. -/
theorem statusBitWriters : Obligations.StatusBitWriters := by
  intro i s t h hput hload hdata
  cases i with
  | add n =>
    rw [exec_add_status h]
    exact ⟨fun hne => absurd rfl (hne n), fun _ => by simp, fun k hov _ => by simp [withOv_bit, hov]⟩
  | sub n =>
    rw [exec_sub_status h]
    exact ⟨fun _ => by simp, fun hne => absurd rfl (hne n), fun k _ huf => by simp [withUf_bit, huf]⟩
  | _ =>
    rw [exec_keeps_status h hput hload hdata nofun nofun]
    exact ⟨fun _ => rfl, fun _ => rfl, fun _ _ _ => rfl⟩

/-! ## The stack pointer -/

/-- Settles O39: the push and the pop move `sp` by 2, modulo 65536, and no other instruction's update touches it. -/
theorem stackPointerWriters : Obligations.StackPointerWriters := by
  intro i s
  cases i with
  | call => exact ⟨_, rfl, by simp [BitVec.toNat_sub, Nat.add_comm]⟩
  | ret => exact ⟨_, rfl, by simp [BitVec.toNat_add]⟩
  | jnz n =>
    obtain ⟨v, hv⟩ := exec_jnz_eq_setPc n s
    exact ⟨_, hv, rfl⟩
  | _ => exact ⟨_, rfl, rfl⟩

/-! ## The address pair and the reset values -/

/-- Settles O13: the pair is the 16-bit value of its two bytes. -/
theorem addressPairValue : Obligations.AddressPairValue := State.addr16_toNat

/-- The register file after reset holds 0 everywhere (R26). -/
theorem State.reset_reg (n : Reg) : State.reset.reg n = 0#8 := by simp [State.reg, State.reset]

/-- Settles O51: the registers by `State.reset_reg`, the other fields as `State.reset` gives them. -/
theorem resetCoreState : Obligations.ResetCoreState := ⟨State.reset_reg, rfl, rfl, rfl⟩

end Sys2Proof.Machine

/-! Proofs of the statements about the memory and the multiplexer (20_memory.md): a step's bus is that of its transactions
(R53, R54), from which follow the store frame (R63) and the invariant (R50, R61); the plain addresses (R61), the byte stored
ahead of the fetch (R69), and the ROM a launch places (R71). -/

namespace Sys2Proof.Machine

/-! ## Transactions -/

@[simp] theorem Bus.replay_nil (b : Bus) : b.replay [] = b := rfl

@[simp] theorem Bus.replay_cons (b : Bus) (x : Transaction) (l : List Transaction) :
    b.replay (x :: l) = (b.perform x).replay l := rfl

/-- An instruction answers a next state, and the bus it leaves is that of the transactions of its row of R53. -/
theorem exec_next_replay (i : Instr) (s : State) :
    ∃ t : State, exec i s = .next t ∧ t.bus = s.bus.replay (dataTransactions i s) := by
  cases i with
  | load n => exact ⟨_, rfl, rfl⟩
  | store n => exact ⟨_, rfl, rfl⟩
  | call => exact ⟨_, rfl, s.push16_bus s.pc⟩
  | ret => exact ⟨_, rfl, s.pop16_bus⟩
  | jnz n =>
    obtain ⟨v, hv⟩ := exec_jnz_eq_setPc n s
    exact ⟨_, hv, rfl⟩
  | _ => exact ⟨_, rfl, rfl⟩

theorem exec_bus {i : Instr} {s t : State} (h : exec i s = .next t) : t.bus = s.bus.replay (dataTransactions i s) := by
  obtain ⟨u, hu, hbus⟩ := exec_next_replay i s
  obtain rfl : u = t := Host.Outcome.next.inj (hu.symm.trans h)
  exact hbus

/-- The addresses and bytes of the data transactions come from the registers, `pc` and `sp`, which the fetch keeps. -/
theorem dataTransactions_fetch (i : Instr) (s : State) : dataTransactions i s.fetch.2 = dataTransactions i s := by
  cases i <;> rfl

/-- Settles O7: the fetch is the first transaction, and `exec_next_replay` gives the others from the bus it leaves. -/
theorem stepPerformsItsTransactions : Obligations.StepPerformsItsTransactions := by
  intro s
  obtain ⟨t, ht, hbus⟩ := exec_next_replay (decodeByte s.latch.armed s.fetch.1) s.fetch.2
  rw [dataTransactions_fetch] at hbus
  exact ⟨t, ht, hbus⟩

theorem step_bus {s t : State} (h : step s = .next t) : t.bus = s.bus.replay (stepTransactions s) := by
  obtain ⟨u, hu, hbus⟩ := stepPerformsItsTransactions s
  obtain rfl : u = t := Host.Outcome.next.inj (hu.symm.trans h)
  exact hbus

/-! ## The invariant, on the bus -/

/-- The machine's invariant speaks of the bus alone. -/
def Bus.Inv (b : Bus) : Prop := Memory.wf b.store ∧ b.dev.Wf

theorem State.inv_iff_bus_inv (s : State) : s.Inv ↔ s.bus.Inv := Iff.rfl

theorem Bus.Inv.read {b : Bus} (h : b.Inv) (a : Addr) : (b.read a).2.Inv := by
  obtain ⟨hstore, hdev⟩ := h
  exact ⟨by rwa [Bus.read_store], (b.read_dev_kept a).2 hdev⟩

theorem Bus.Inv.write {b : Bus} (h : b.Inv) (a : Addr) (v : Byte) : (b.write a v).Inv := by
  obtain ⟨hstore, hdev⟩ := h
  refine ⟨?_, (b.write_dev a v).2 hdev⟩
  rcases b.write_store a v with hw | hw <;> rw [hw]
  · exact Memory.write_wf _ _ _ hstore
  · exact hstore

theorem Bus.Inv.perform {b : Bus} (h : b.Inv) (x : Transaction) : (b.perform x).Inv := by
  cases x with
  | read a => exact h.read a
  | write a v => exact h.write a v

theorem Bus.Inv.replay {b : Bus} (h : b.Inv) (l : List Transaction) : (b.replay l).Inv := by
  induction l generalizing b with
  | nil => exact h
  | cons x l ih => exact ih (h.perform x)

/-- Settles O56: a step's bus is that of its transactions, and every transaction keeps the invariant. -/
theorem stepKeepsTheInvariant : Obligations.StepKeepsTheInvariant := by
  intro s t hinv hstep
  rw [State.inv_iff_bus_inv, step_bus hstep]
  exact Bus.Inv.replay hinv _

/-- Settles O55: nothing is listed in the store at reset, and the RAM-only device is well formed. -/
theorem invariantAtReset : Obligations.InvariantAtReset := ⟨Memory.nil_wf, trivial⟩

/-! ## Which store bytes can change -/

/-- A write, to a special address too, changes no store byte but its own address's (R63). -/
theorem Bus.write_store_read_ne (b : Bus) (a c : Addr) (v : Byte) (h : c ≠ a) :
    Memory.read (b.write a v).store c = Memory.read b.store c := by
  rcases b.write_store a v with hw | hw <;> rw [hw]
  exact Memory.read_write_ne _ _ _ _ h

/-- Transactions that never write an address keep its store byte. -/
theorem Bus.replay_store_read (b : Bus) (l : List Transaction) (c : Addr) (h : ∀ v, .write c v ∉ l) :
    Memory.read (b.replay l).store c = Memory.read b.store c := by
  induction l generalizing b with
  | nil => rfl
  | cons x l ih =>
    have hl : ∀ v, .write c v ∉ l := fun v hv => h v (List.mem_cons_of_mem _ hv)
    rw [Bus.replay_cons, ih _ hl]
    cases x with
    | read a => rw [Bus.perform, Bus.read_store]
    | write a v =>
      have hne : c ≠ a := fun e => h v (e ▸ List.mem_cons_self)
      exact b.write_store_read_ne a c v hne

/-- Settles O40: no row of R53 but STORE's and CALL's holds a write, and those write the excluded addresses. -/
theorem storeWriters : Obligations.StoreWriters := by
  intro i s t h a hstore hcall
  rw [exec_bus h]
  apply Bus.replay_store_read
  intro v
  cases i with
  | store n =>
    have ha : a ≠ s.addr16 := hstore ⟨n, rfl⟩
    simp [dataTransactions, ha]
  | call =>
    obtain ⟨hlow, hhigh⟩ := hcall rfl
    simp [dataTransactions, hlow, hhigh]
  | _ => simp [dataTransactions]

/-! ## Plain addresses -/

/-- A byte written at a plain address is what a read of it returns (R61, R66). -/
theorem Bus.read_write_plain (b : Bus) (a : Addr) (v : Byte) (h : b.dev.special a = false) :
    ((b.write a v).read a).1 = v := by
  rw [b.write_plain a v h, (b.writeStore a v).read_plain a h, Bus.writeStore_store, Memory.read_write_same]

/-- Settles O41: off the special set a read and a write are those of the store. -/
theorem plainAddressIsTheStore : Obligations.PlainAddressIsTheStore := by
  intro b a v h
  refine ⟨b.read_plain a h, b.read_write_plain a v h, ?_, fun c hc => ⟨?_, b.write_store_read_ne a c v hc⟩⟩
  · rw [b.write_plain a v h, Bus.writeStore_dev]
  · rw [b.write_plain a v h, b.read_writeStore_ne a c v hc]

/-- A STORE to the plain next byte leaves a state whose fetch gives the stored byte and has no effect (R69). -/
theorem fetch_after_store_ahead (s : State) (v : Byte) (h : s.bus.dev.special (s.pc + 1#16) = false) :
    (s.busWrite (s.pc + 1#16) v).postStep.fetch = (v, (s.busWrite (s.pc + 1#16) v).postStep) := by
  have hdev : (s.bus.write (s.pc + 1#16) v).dev = s.bus.dev := by rw [s.bus.write_plain _ v h, Bus.writeStore_dev]
  have hpeek : (s.busWrite (s.pc + 1#16) v).postStep.peek (s.pc + 1#16) = v := s.bus.read_write_plain _ v h
  rw [State.fetch_plain _ (by simpa [hdev] using h)]
  simp [hpeek]

/-- Settles O26: the fetch gives the stored byte, and `step` is `exec` of what the fetched byte decodes to. -/
theorem storedByteIsFetchedNext : Obligations.StoredByteIsFetchedNext := by
  intro n s haddr hplain
  have hfetch := fetch_after_store_ahead s (s.reg n) hplain
  rw [← haddr] at hfetch
  refine ⟨_, rfl, hfetch, ?_⟩
  rw [step, hfetch, State.postStep_latch, State.busWrite_latch]

/-! ## The ROM a launch places -/

/-- A byte that nothing has set is INIT_MEM's (R71). -/
@[simp] theorem Memory.read_nil (a : Addr) : Memory.read [] a = Config.initMem a := rfl

theorem Bus.loadRom_store_cons (b : Bus) (base : Nat) (v : Byte) (rom : List Byte) :
    Bus.loadRom .store b base (v :: rom) = Bus.loadRom .store (b.writeStore (BitVec.ofNat 16 base) v) (base + 1) rom := rfl

theorem Bus.loadRom_store_dev (b : Bus) (base : Nat) (rom : List Byte) :
    (Bus.loadRom .store b base rom).dev = b.dev := by
  induction rom generalizing b base with
  | nil => rfl
  | cons v rom ih => rw [Bus.loadRom_store_cons, ih, Bus.writeStore_dev]

/-- Outside the addresses of the image the store bytes stay as they were. -/
theorem Bus.loadRom_store_read_outside (b : Bus) (base : Nat) (rom : List Byte) (a : Addr)
    (hfit : base + rom.length ≤ 65536) (ha : a.toNat < base ∨ base + rom.length ≤ a.toNat) :
    Memory.read (Bus.loadRom .store b base rom).store a = Memory.read b.store a := by
  induction rom generalizing b base with
  | nil => rfl
  | cons v rom ih =>
    rw [List.length_cons] at hfit ha
    have hne : a ≠ BitVec.ofNat 16 base := by
      rintro rfl
      rw [BitVec.toNat_ofNat] at ha
      omega
    rw [Bus.loadRom_store_cons, ih _ _ (by omega) (by omega), Bus.writeStore_store, Memory.read_write_ne _ _ _ _ hne]

/-- Byte `k` of the image is store byte `base + k`: the load of the later bytes does not reach it. -/
theorem Bus.loadRom_store_read (b : Bus) (base : Nat) (rom : List Byte) (k : Nat) (v : Byte)
    (hfit : base + rom.length ≤ 65536) (hk : rom[k]? = some v) :
    Memory.read (Bus.loadRom .store b base rom).store (BitVec.ofNat 16 (base + k)) = v := by
  induction rom generalizing b base k with
  | nil => simp at hk
  | cons w rom ih =>
    rw [List.length_cons] at hfit
    rw [Bus.loadRom_store_cons]
    cases k with
    | zero =>
      have hbase : (BitVec.ofNat 16 base).toNat < base + 1 := by rw [BitVec.toNat_ofNat]; omega
      obtain rfl : w = v := by simpa using hk
      rw [Nat.add_zero base, Bus.loadRom_store_read_outside _ _ rom _ (by omega) (.inl hbase), Bus.writeStore_store,
        Memory.read_write_same]
    | succ k =>
      rw [show base + (k + 1) = base + 1 + k by omega]
      exact ih _ _ k (by omega) (by simpa using hk)

/-- Settles O53: the core is `State.reset`'s, and the store bytes are those the ROM load leaves from an unset store. -/
theorem launchPlacesTheRom : Obligations.LaunchPlacesTheRom := by
  intro dev rom
  refine ⟨fun hle => ⟨_, if_pos hle, State.reset_reg, rfl, rfl, rfl, Bus.loadRom_store_dev _ _ _, fun k v hk => ?_,
    fun a ha => ?_⟩, fun hlt => if_neg (Nat.not_le.mpr hlt)⟩
  · simpa using Bus.loadRom_store_read ⟨[], dev, 0⟩ 0 rom k v (by omega) hk
  · exact Bus.loadRom_store_read_outside ⟨[], dev, 0⟩ 0 rom a (by omega) (.inr (by omega))

end Sys2Proof.Machine

/-! Proofs of the statements about the encoding (30_encoding.md): decode and encode are inverse (R80 to R85), the rows of the
opcode map part the bytes (R85), the disassembler reads lines back (R89), and what the pseudo-instructions emit (R88). -/

namespace Sys2Proof

/-! ## The two fields of a byte (R80) -/

@[simp] theorem opNibble_nibbles (op n : Reg) : opNibble (nibbles op n) = op := BitVec.extractLsb'_append_eq_left

@[simp] theorem lowNibble_nibbles (op n : Reg) : lowNibble (nibbles op n) = n := BitVec.extractLsb'_append_eq_right

theorem nibbles_fields (b : Byte) : nibbles (opNibble b) (lowNibble b) = b := by
  have h : (opNibble b ++ lowNibble b : Byte) = b.extractLsb' 0 8 := BitVec.extractLsb'_append_extractLsb'_eq_extractLsb' rfl
  rw [nibbles, h, BitVec.extractLsb'_eq_self]

theorem nibbles_lowNibble {b : Byte} {k : Nat} (h : (opNibble b).toNat = k) :
    nibbles (BitVec.ofNat 4 k) (lowNibble b) = b := by
  rw [← h, BitVec.ofNat_toNat, BitVec.setWidth_eq, nibbles_fields]

/-! ## Decoding what is encoded -/

/-- The reserved codes of class 0x1 (R124). -/
theorem decodeSystem_reserved {f : Reg} (h : 4 ≤ f.toNat) : decodeSystem f = .rsv1x f := by
  unfold decodeSystem
  split
  case h_5 => rfl
  all_goals omega

/-- The byte of a well-formed instruction is decoded to it: its opcode nibble selects the row, and within class 0x1 the low
nibble does. -/
theorem decodeByte_encodeByte {i : Instr} (h : i.wf = true) : decodeByte i.isData (encodeByte i) = i := by
  cases i with
  | litData | jmp | call | ret | halt => rfl
  | rsv1x f =>
    have hf : 4 ≤ f.toNat := of_decide_eq_true h
    simp [decodeByte, Instr.isData, encodeByte, decodeOpcode, decodeSystem_reserved hf]
  | _ n => simp [decodeByte, Instr.isData, encodeByte, decodeOpcode]

/-- Settles O1: `decode` takes one byte, and that byte is decoded to the instruction. -/
theorem decodeOfEncode : Obligations.DecodeOfEncode := by
  intro i rest h
  rw [encode, List.singleton_append, decode, decodeByte_encodeByte h]

/-! ## Encoding what is decoded -/

theorem decodeSystem_spec (f : Reg) :
    (decodeSystem f).wf = true ∧ (decodeSystem f).isData = false ∧ encodeByte (decodeSystem f) = nibbles 0x1 f := by
  by_cases hf : 4 ≤ f.toNat
  · rw [decodeSystem_reserved hf]
    exact ⟨decide_eq_true hf, rfl, rfl⟩
  · revert f; decide

/-- One case per opcode nibble (R85): the operand nibble is free, and class 0x1 is `decodeSystem_spec`. -/
theorem decodeOpcode_spec (b : Byte) :
    (decodeOpcode b).wf = true ∧ (decodeOpcode b).isData = false ∧ encodeByte (decodeOpcode b) = b := by
  have hlt : (opNibble b).toNat < 16 := (opNibble b).isLt
  unfold decodeOpcode
  generalize h : (opNibble b).toNat = op at hlt ⊢
  interval_cases op
  pick_goal 2 -- class 0x1
  · have hb : nibbles 0x1 (lowNibble b) = b := nibbles_lowNibble h
    simpa only [hb] using decodeSystem_spec (lowNibble b)
  all_goals exact ⟨rfl, rfl, nibbles_lowNibble h⟩

/-- Settles O2: with the latch armed the byte itself is the data, otherwise `decodeOpcode_spec` says it. -/
theorem decodeTotalAndInvertible : Obligations.DecodeTotalAndInvertible := by
  intro armed b
  cases armed with
  | true => exact ⟨rfl, rfl, rfl⟩
  | false => exact decodeOpcode_spec b

/-- Settles O4: eleven closed facts, by evaluating the decoder on each word. -/
theorem wordsOfTheRulesDecode : Obligations.WordsOfTheRulesDecode := by
  unfold Obligations.WordsOfTheRulesDecode; decide

/-! ## The opcode map (R85) -/

/-- The row of an instruction's mnemonic covers its byte: `Laws.EncodedRow` for every constructor. -/
theorem encodedRow (i : Instr) : Laws.EncodedRow.Statement i := by
  cases i
  exacts [Laws.EncodedRow.lit _, Laws.EncodedRow.litData _, Laws.EncodedRow.jmp, Laws.EncodedRow.call, Laws.EncodedRow.ret,
    Laws.EncodedRow.halt, Laws.EncodedRow.rsv1x _, Laws.EncodedRow.jnz _, Laws.EncodedRow.get _, Laws.EncodedRow.put _,
    Laws.EncodedRow.load _, Laws.EncodedRow.store _, Laws.EncodedRow.cmpeq _, Laws.EncodedRow.cmpgl _,
    Laws.EncodedRow.add _, Laws.EncodedRow.sub _, Laws.EncodedRow.shl _, Laws.EncodedRow.shr _, Laws.EncodedRow.or _,
    Laws.EncodedRow.and _, Laws.EncodedRow.not _]

theorem opcodeMap_rising : opcodeMap.Pairwise fun r q => r.last < q.first := by decide

/-- Of rows with strictly rising ranges no two cover one byte. -/
theorem filter_covers_eq_singleton {rows : List OpcodeRow} {r : OpcodeRow} {b : Byte}
    (hrows : rows.Pairwise fun r q => r.last < q.first) (hr : r ∈ rows) (hb : r.covers b = true) :
    rows.filter (fun q => q.covers b) = [r] := by
  induction rows with
  | nil => cases hr
  | cons q rows ih =>
    obtain ⟨hq, htail⟩ := List.pairwise_cons.mp hrows
    have hnot_both : ∀ p ∈ rows, q.covers b = true → ¬ p.covers b = true := by
      intro p hp
      have hlt := hq p hp
      simp only [OpcodeRow.covers, decide_eq_true_eq]
      omega
    rcases List.mem_cons.mp hr with rfl | hr
    · rw [List.filter_cons, if_pos hb, List.filter_eq_nil_iff.mpr fun p hp => hnot_both p hp hb]
    · rw [List.filter_cons, if_neg fun hqb => hnot_both r hr hqb hb, ih htail hr]

/-- Settles O3: the row of the decoded instruction's mnemonic covers the byte, and no other row does. -/
theorem opcodeMapPartitionsBytes : Obligations.OpcodeMapPartitionsBytes := by
  intro b
  obtain ⟨hwf, hdata, hb⟩ := decodeOpcode_spec b
  obtain ⟨r, hr, hrow⟩ := List.any_eq_true.mp (encodedRow _ hwf hdata)
  rw [hb, Bool.and_eq_true, beq_iff_eq] at hrow
  obtain ⟨hname, hcovers⟩ := hrow
  rw [filter_covers_eq_singleton opcodeMap_rising hr hcovers, List.map_singleton, hname]
  rfl

end Sys2Proof

namespace Sys2Proof.Machine

/-! ## Disassembly (R89) -/

theorem disassemble_lit (n : Reg) (d : Byte) (rest : List Byte) :
    disassemble (nibbles 0x0 n :: d :: rest) = .lit n d :: disassemble rest := by
  simp [disassemble, decodeOpcode]

theorem disassemble_op (b : Byte) (rest : List Byte) (h : ∀ n, decodeOpcode b ≠ .lit n) :
    disassemble (b :: rest) = .op (decodeOpcode b) :: disassemble rest := by
  cases rest with
  | nil | cons d rest =>
    rw [disassemble.eq_def]
    dsimp only
    split
    · exact absurd ‹_› (h _)
    · rfl

/-- A plain line is read back from its bytes, and what follows them is disassembled on its own. -/
theorem disassemble_bytes_append {l : AsmLine} (h : l.Plain) (rest : List Byte) :
    disassemble (l.bytes ++ rest) = l :: disassemble rest := by
  cases l with
  | lit n d => exact disassemble_lit n d rest
  | op i =>
    obtain ⟨hwf, hdata, hlit⟩ := h
    have hi : decodeOpcode (encodeByte i) = i := by simpa [hdata, decodeByte] using decodeByte_encodeByte hwf
    have hop := disassemble_op (encodeByte i) rest (by rwa [hi])
    rwa [hi] at hop
  | litEnd n => exact h.elim

/-- Settles O59, by induction on the list of lines. -/
theorem disassembleOfLines : Obligations.DisassembleOfLines := by
  intro ls h
  induction ls with
  | nil => rfl
  | cons l ls ih =>
    obtain ⟨hl, hls⟩ := List.forall_mem_cons.mp h
    rw [List.flatMap_cons, disassemble_bytes_append hl, ih hls]

/-! ## Pseudo-instructions (R88) -/

/-- A source text of one line is expanded, then emitted from address 0. -/
theorem assemble_singleton (l : SourceLine) :
    assemble [l] = l.expand >>= fun lines => emitAll (labelTable 0 lines) 0 lines := by
  rw [assemble, expandAll]
  cases l.expand with
  | error e => rfl
  | ok lines =>
    change emitAll (labelTable 0 (lines ++ [])) 0 (lines ++ []) = _
    rw [List.append_nil]
    rfl

/-- Settles O58: only JNZI looks at its register before it expands; every other clause is the assembler run on the line. -/
theorem pseudoInstructionBytes : Obligations.PseudoInstructionBytes := by
  intro e n
  refine ⟨rfl, rfl, rfl, fun h1 h2 => ?_, fun h => ?_, rfl, rfl, rfl⟩
  · rw [assemble_singleton, SourceLine.expand, if_neg (not_or.mpr ⟨h1, h2⟩)]
    rfl
  · rw [assemble_singleton, SourceLine.expand, if_pos h]
    rfl

end Sys2Proof.Machine

/-! Proofs of the statements about the step and the literal latch (40_step_and_literal.md): a step as a fetch and the decoded
instruction (R100, R103), the final `pc` (R101, R102), LIT and the literal-data step (R105 to R109), and the next step's run of
a placed word. -/

namespace Sys2Proof.Machine

/-! ## Which bytes are a LIT (R85) -/

theorem nibbles_toNat (op n : Reg) : (nibbles op n).toNat = op.toNat * 16 + n.toNat := by
  have h : n.toNat < 2 ^ 4 := n.isLt
  rw [nibbles, BitVec.toNat_append, ← Nat.shiftLeft_add_eq_or_of_lt h, Nat.shiftLeft_eq]

/-- An instruction of format R decodes from its row's 16 bytes, since it encodes to them (R81). -/
theorem encodedAs_of_encodeByte {op : Nat} {i : Reg → Instr}
    (h : ∀ n, (i n).wf = true ∧ (i n).isData = false ∧ encodeByte (i n) = nibbles (BitVec.ofNat 4 op) n) :
    EncodedAs op i := by
  intro n
  obtain ⟨hwf, hdata, hbyte⟩ := h n
  have hnat : BitVec.ofNat 8 (op * 16 + n.toNat) = nibbles (BitVec.ofNat 4 op) n := by
    apply BitVec.eq_of_toNat_eq
    rw [nibbles_toNat, BitVec.toNat_ofNat, BitVec.toNat_ofNat]
    omega
  rw [hnat, ← hbyte, ← hdata, decodeByte_encodeByte hwf]

theorem encodedAs_lit : EncodedAs 0x0 .lit := encodedAs_of_encodeByte fun _ => ⟨rfl, rfl, rfl⟩

/-- The LIT row of R85 is the bytes below 16, and the byte is its own operand. -/
theorem decodeOpcode_eq_lit_iff {b : Byte} {n : Reg} : decodeOpcode b = .lit n ↔ b.toNat = n.toNat := by
  constructor
  · intro h
    obtain ⟨-, -, hbyte⟩ := decodeOpcode_spec b
    rw [← hbyte, h, encodeByte, nibbles_toNat]
    simp
  · intro h
    have hb : b = BitVec.ofNat 8 (0x0 * 16 + n.toNat) := by
      apply BitVec.eq_of_toNat_eq
      have hn : n.toNat < 16 := n.isLt
      rw [BitVec.toNat_ofNat, h]
      omega
    rw [hb]
    exact encodedAs_lit n

/-! ## The step as fetch and `exec` -/

/-- With a plain `pc` the fetch leaves no trace: the step is `exec` on the state itself (R100). -/
theorem step_plain (s : State) (h : s.bus.dev.special s.pc = false) :
    step s = exec (decodeByte s.latch.armed (s.peek s.pc)) s := by
  rw [step, s.fetch_plain h]

/-- Settles O5: the fetch is one bus read, which keeps the core and the store. -/
theorem stepRunsTheDecodedInstruction : Obligations.StepRunsTheDecodedInstruction := by
  rintro s _ rfl
  exact ⟨rfl, s.reg_fetch, rfl, rfl, rfl, rfl, s.bus.read_store s.pc, step_plain s⟩

theorem dataTransactions_length_le_two (i : Instr) (s : State) : (dataTransactions i s).length ≤ 2 := by
  cases i with
  | call | ret => exact Nat.le_refl 2
  | load | store => exact Nat.le_succ 1
  | _ => exact Nat.zero_le 2

/-- Settles O6: O7 gives the next state and its bus, and no row of R53 has more than two data transactions. -/
theorem stepNeverFails : Obligations.StepNeverFails := by
  intro s
  obtain ⟨t, hstep, hbus⟩ := stepPerformsItsTransactions s
  exact ⟨t, hstep, hbus, rfl, dataTransactions_length_le_two _ s⟩

@[simp] theorem Device.plainAt_special (d : Device) (a : Addr) : (d.plainAt a).special a = false := by
  unfold Device.plainAt
  split
  · rfl
  · next h => exact Bool.eq_false_of_not_eq_true h

/-- The placed byte is what a fetch gives: it is in the store, at an address that `plainAt` has made plain. -/
theorem State.placeByte_fetch (s : State) (v : Byte) : (s.placeByte v).fetch = (v, s.placeByte v) := by
  have hplain : (s.placeByte v).bus.dev.special s.pc = false := s.bus.dev.plainAt_special s.pc
  have hpeek : (s.placeByte v).peek s.pc = v := by
    rw [State.peek_plain _ _ hplain, State.placeByte_bus, Memory.read_write_same]
  rw [State.fetch_plain _ hplain, State.placeByte_pc, hpeek]

/-- Settles O54: the step fetches the placed byte, and `decodeTableWord` decodes it as the step does with the latch
disarmed. -/
theorem placedWordRunsNext : Obligations.PlacedWordRunsNext := by
  intro s w i h
  have hi : decodeByte false (BitVec.ofNat 8 (w % 2 ^ 8)) = i := Option.some.inj h
  rw [step, State.withFetchWord, State.placeByte_fetch, State.placeByte_latch, hi]

/-! ## The final `pc` (R101) -/

theorem exec_jnz_of_zero {n : Reg} {s : State} (h : s.reg n = 0#8) : exec (.jnz n) s = .next s.postStep := by
  simp [exec, execJnz, h]

theorem exec_jnz_of_ne_zero {n : Reg} {s : State} (h : s.reg n ≠ 0#8) :
    exec (.jnz n) s = .next (s.transfer s.addr16).postStep := by
  simp [exec, execJnz, h]

/-- A transfer to the address pair, with the increment that follows it, ends at that pair's value (R21, R102). -/
theorem transfer_addr16_postStep_pc_toNat (s u : State) :
    (u.transfer s.addr16).postStep.pc.toNat = (s.reg 1#4).toNat * 256 + (s.reg 2#4).toNat := by
  rw [State.transfer_postStep_pc, State.addr16_toNat]

/-- Settles O8: the transfers land on `addr16`, RET one past the popped value, HALT's decrement and the increment cancel out,
and every other instruction leaves `pc` to the increment. -/
theorem finalPcOfEveryInstruction : Obligations.FinalPcOfEveryInstruction := by
  intro i s
  cases i with
  | jmp => exact ⟨_, rfl, transfer_addr16_postStep_pc_toNat s s⟩
  | call => exact ⟨_, rfl, transfer_addr16_postStep_pc_toNat s (s.push16 s.pc)⟩
  | jnz n =>
    by_cases hz : s.reg n = 0#8
    · exact ⟨_, exec_jnz_of_zero hz, by rw [State.postStep_pc_toNat]; exact (if_pos hz).symm⟩
    · exact ⟨_, exec_jnz_of_ne_zero hz, by rw [transfer_addr16_postStep_pc_toNat]; exact (if_neg hz).symm⟩
  | ret => exact ⟨_, rfl, by rw [State.postStep_pc_toNat, State.setPc_pc, State.pop16_value, word16_toNat]⟩
  | halt => exact ⟨_, rfl, by simp [haltPc, Config.halt13Advances]⟩
  | _ => exact ⟨_, rfl, State.postStep_pc_toNat _⟩

/-! ## LIT and the literal-data step (R105, R106) -/

/-- Settles O9: LIT's update is `State.arm`. -/
theorem litArmsTheLatch : Obligations.LitArmsTheLatch :=
  ⟨encodedAs_lit, fun _ s => ⟨_, rfl, rfl, s.postStep_pc_toNat, .of_reg_eq fun _ => rfl, rfl, rfl, fun _ => rfl⟩⟩

/-- Settles O10: the update is one register write and `State.disarm`. -/
theorem literalDataIsStoredVerbatim : Obligations.LiteralDataIsStoredVerbatim := by
  refine ⟨fun _ => rfl, fun d s => ⟨_, rfl, s.reg_setReg_same _ d, rfl, s.postStep_pc_toNat, ?_, rfl, rfl, fun _ => rfl⟩⟩
  exact ((RegsKeptBut.of_reg_eq fun _ => rfl).setReg (List.mem_singleton_self _) d).disarm.postStep

/-- With the latch armed and a plain `pc`, a step is the literal-data step of the byte there (R82, R106). -/
theorem step_armed_plain (s : State) (harmed : s.latch.armed = true) (h : s.bus.dev.special s.pc = false) :
    step s = exec (.litData (s.peek s.pc)) s := by
  rw [step_plain s h, harmed]
  rfl

/-- Settles O11: the LIT arms the latch for `n`, and the literal-data step that follows is O10's. -/
theorem literalRoundTrip : Obligations.LiteralRoundTrip := by
  intro s n v hlatch hplain hplain' hlit hv
  have hdecode : decodeByte s.latch.armed (s.peek s.pc) = .lit n := by
    simpa [hlatch, hlit] using encodedAs_lit n
  have hstep : step s = .next (s.arm n).postStep := by
    rw [step_plain s hplain, hdecode]
    rfl
  have hstep' : step (s.arm n).postStep = exec (.litData v) (s.arm n).postStep := by
    rw [← hv]
    exact step_armed_plain _ rfl hplain'
  obtain ⟨-, hdata⟩ := literalDataIsStoredVerbatim
  obtain ⟨u, hu, hreg, hu_latch, hu_pc, hregs, hsp, hbus⟩ := hdata v (s.arm n).postStep
  refine ⟨_, u, hstep, hstep'.trans hu, hreg, hregs, by rw [hu_latch], ?_, hsp, hbus⟩
  rw [hu_pc, State.postStep_pc_toNat, State.arm_pc, Nat.mod_add_mod]

theorem hostCall_interrupt (s : State) (addr : Addr) : hostCall (.interrupt addr) s = .next (s.interrupt addr) := rfl

theorem hostCalls_cons_of_next {c : HostCall} {cs : List HostCall} {s t : State} (h : hostCall c s = .next t) :
    hostCalls (c :: cs) s = hostCalls cs t := by
  rw [hostCalls, h]

/-- Settles O50: the interrupt sets `pc` only, so the step after it is O10's at `addr`. -/
theorem armedLatchSurvivesInterrupt : Obligations.ArmedLatchSurvivesInterrupt := by
  intro s addr harmed hplain
  obtain ⟨-, hdata⟩ := literalDataIsStoredVerbatim
  obtain ⟨t, ht, hreg, ht_latch, hpc, hregs, hsp, hbus⟩ := hdata (s.peek addr) (s.interrupt addr)
  have hstep : hostCall .step (s.interrupt addr) = .next t := (step_armed_plain (s.interrupt addr) harmed hplain).trans ht
  refine ⟨t, ?_, hreg, hregs, by rw [ht_latch], hpc, hsp, hbus⟩
  rw [hostCalls_cons_of_next (hostCall_interrupt s addr), hostCalls_cons_of_next hstep, hostCalls]

/-! ## The latch after a step (R109) -/

/-- What an instruction makes of the latch: only LIT and the literal-data row touch it (R105, R106). -/
def latchAfter : Instr → Latch → Latch
  | .lit n, _ => { armed := true, target := n }
  | .litData _, l => { l with armed := false }
  | _, l => l

theorem latchAfter_of_not_literal {i : Instr} (hlit : ∀ n, i ≠ .lit n) (hdata : i.isData = false) (l : Latch) :
    latchAfter i l = l := by
  cases i with
  | lit n => exact absurd rfl (hlit n)
  | litData d => cases hdata
  | _ => rfl

theorem exec_latch {i : Instr} {s t : State} (h : exec i s = .next t) : t.latch = latchAfter i s.latch := by
  cases i with
  | jnz n =>
    obtain ⟨v, hv⟩ := exec_jnz_eq_setPc n s
    obtain rfl := Host.Outcome.next.inj (hv.symm.trans h)
    rfl
  | _ =>
    obtain rfl := Host.Outcome.next.inj h
    rfl

theorem step_latch {s t : State} (h : step s = .next t) :
    t.latch = latchAfter (decodeByte s.latch.armed (s.peek s.pc)) s.latch := exec_latch (s := s.fetch.2) h

/-- Settles O12: an armed latch is disarmed by the literal-data step; a disarmed one is armed by a byte of the LIT row and
left alone by every other. -/
theorem latchAfterAStep : Obligations.LatchAfterAStep := by
  intro s t h
  rw [step_latch h]
  cases harmed : s.latch.armed with
  | true => simp [decodeByte, latchAfter]
  | false =>
    by_cases hb : (s.peek s.pc).toNat < 16
    · have hlit : decodeByte false (s.peek s.pc) = .lit (BitVec.ofNat 4 (s.peek s.pc).toNat) :=
        decodeOpcode_eq_lit_iff.mpr (by rw [BitVec.toNat_ofNat, Nat.mod_eq_of_lt hb])
      simp [hlit, latchAfter, hb]
    · have hlit : ∀ n, decodeByte false (s.peek s.pc) ≠ .lit n :=
        fun n hn => hb (decodeOpcode_eq_lit_iff.mp hn ▸ n.isLt)
      obtain ⟨-, hdata, -⟩ := decodeOpcode_spec (s.peek s.pc)
      simp [latchAfter_of_not_literal hlit hdata, harmed, hb]

end Sys2Proof.Machine

/-! Proofs of the statements about control transfer (41_control.md): JMP, HALT, the reserved codes and JNZ, which change
nothing but `pc` (R120, R123 to R125), CALL's push (R121), RET's pop (R122), and the round trip of the two (S5). -/

namespace Sys2Proof.Machine

/-! ## Transfers that change `pc` only -/

theorem onlyRegs_setPc (s : State) (v : Addr) : OnlyRegs [] s (s.setPc v) :=
  ⟨.of_reg_eq fun _ => rfl, ⟨rfl, rfl⟩, rfl, fun _ => rfl⟩

/-- Settles O14: the transfer writes `pc` only, and the increment lands it on `addr16`. -/
theorem jmpGoesToTheAddressPair : Obligations.JmpGoesToTheAddressPair :=
  ⟨rfl, fun s => ⟨_, rfl, transfer_addr16_postStep_pc_toNat s s, onlyRegs_setPc s _⟩⟩

/-- Settles O18: the decrement and the increment cancel out, and `pc` written back to itself is the state itself. -/
theorem haltChangesNothing : Obligations.HaltChangesNothing := by
  refine ⟨rfl, fun s => ?_⟩
  have hpc : haltPc Config.halt13Advances s.pc + 1#16 = s.pc := BitVec.sub_add_cancel s.pc 1#16
  calc exec .halt s = .next (s.setPc (haltPc Config.halt13Advances s.pc + 1#16)) := rfl
    _ = .next (s.setPc s.pc) := by rw [hpc]
    _ = .next s := rfl

theorem encodeByte_rsv1x (f : Reg) : encodeByte (.rsv1x f) = BitVec.ofNat 8 (0x10 + f.toNat) := by
  revert f; decide

/-- Settles O20: the byte is the encoding of a well-formed reserved code, and its meaning is the increment alone. -/
theorem reservedCodesOnlyAdvance : Obligations.ReservedCodesOnlyAdvance := by
  refine ⟨fun f hf => ?_, fun f s => ⟨_, rfl, s.postStep_pc_toNat, onlyRegs_setPc s _⟩⟩
  rw [← encodeByte_rsv1x]
  exact decodeByte_encodeByte (i := .rsv1x f) (decide_eq_true hf)

/-- Settles O21: the transfer of JMP if register n is nonzero, the increment alone if it is zero. -/
theorem jnzBranchesOnNonzero : Obligations.JnzBranchesOnNonzero := by
  refine ⟨encodedAs_of_encodeByte fun _ => ⟨rfl, rfl, rfl⟩, fun n s => ?_⟩
  by_cases hz : s.reg n = 0#8
  · exact ⟨_, exec_jnz_of_zero hz, onlyRegs_setPc s _, fun hne => absurd (congrArg BitVec.toNat hz) hne,
      fun _ => s.postStep_pc_toNat⟩
  · exact ⟨_, exec_jnz_of_ne_zero hz, onlyRegs_setPc s _, fun _ => transfer_addr16_postStep_pc_toNat s s,
      fun h0 => absurd (BitVec.eq_of_toNat_eq h0) hz⟩

/-! ## The two bytes of a 16-bit value (R7, R55) -/

theorem lowByte_eq_ofNat (v : Addr) : lowByte v = BitVec.ofNat 8 (v.toNat % 256) := by
  apply BitVec.eq_of_toNat_eq
  simp [lowByte]

theorem highByte_eq_ofNat (v : Addr) : highByte v = BitVec.ofNat 8 (v.toNat / 256) := by
  apply BitVec.eq_of_toNat_eq
  simp [highByte, Nat.shiftRight_eq_div_pow]

theorem lowByte_toNat (v : Addr) : (lowByte v).toNat = v.toNat % 256 := by
  rw [lowByte_eq_ofNat, BitVec.toNat_ofNat]
  omega

theorem highByte_toNat (v : Addr) : (highByte v).toNat = v.toNat / 256 := by
  have h : v.toNat < 65536 := v.isLt
  rw [highByte_eq_ofNat, BitVec.toNat_ofNat]
  omega

/-! ## The push at plain stack addresses (R121) -/

/-- The two stack addresses differ, also where the second one wraps (R58, D8). -/
theorem add_one_ne_self (a : Addr) : a + 1#16 ≠ a := by simp

section PlainPush

variable (s : State) (v : Addr) (hlow : s.bus.dev.special (s.sp - 2#16) = false)
  (hhigh : s.bus.dev.special (s.sp - 2#16 + 1#16) = false)

include hlow hhigh

theorem State.push16_bus_plain : (s.push16 v).bus =
    (s.bus.writeStore (s.sp - 2#16) (lowByte v)).writeStore (s.sp - 2#16 + 1#16) (highByte v) := by
  rw [State.push16_bus, Bus.write_plain _ _ _ hlow, (s.bus.writeStore _ _).write_plain _ _ hhigh]

theorem State.push16_dev_plain : (s.push16 v).bus.dev = s.bus.dev := by
  rw [s.push16_bus_plain v hlow hhigh, Bus.writeStore_dev, Bus.writeStore_dev]

theorem State.peek_push16_high : (s.push16 v).peek (s.sp - 2#16 + 1#16) = highByte v := by
  rw [State.peek_plain _ _ (by rwa [s.push16_dev_plain v hlow hhigh]), s.push16_bus_plain v hlow hhigh,
    Bus.writeStore_store, Memory.read_write_same]

/-- The high byte, written second, leaves the low byte in place. -/
theorem State.peek_push16_low : (s.push16 v).peek (s.sp - 2#16) = lowByte v := by
  rw [State.peek_plain _ _ (by rwa [s.push16_dev_plain v hlow hhigh]), s.push16_bus_plain v hlow hhigh,
    Bus.writeStore_store, Memory.read_write_ne _ _ _ _ (add_one_ne_self _).symm, Bus.writeStore_store,
    Memory.read_write_same]

theorem State.peek_push16_ne {a : Addr} (ha : a ≠ s.sp - 2#16) (ha' : a ≠ s.sp - 2#16 + 1#16) :
    (s.push16 v).peek a = s.peek a := by
  rw [State.peek, s.push16_bus_plain v hlow hhigh, Bus.read_writeStore_ne _ _ _ _ ha', Bus.read_writeStore_ne _ _ _ _ ha,
    State.peek]

end PlainPush

/-- Settles O15: CALL is the push of `pc` and the transfer; what the bus reads afterwards is what the push leaves. -/
theorem callPushesItsOwnAddress : Obligations.CallPushesItsOwnAddress := by
  refine ⟨rfl, fun s => ⟨_, rfl, transfer_addr16_postStep_pc_toNat s (s.push16 s.pc), ?_, .of_reg_eq fun _ => rfl, rfl, ?_,
    fun hlow hhigh => ⟨?_, ?_, s.push16_dev_plain s.pc hlow hhigh, fun a => s.peek_push16_ne s.pc hlow hhigh⟩⟩⟩
  · simp [BitVec.toNat_sub, Nat.add_comm]
  · rw [← lowByte_eq_ofNat, ← highByte_eq_ofNat]
    exact s.push16_bus s.pc
  · rw [State.peek_postStep, State.peek_transfer, s.peek_push16_low s.pc hlow hhigh, lowByte_toNat]
  · rw [State.peek_postStep, State.peek_transfer, s.peek_push16_high s.pc hlow hhigh, highByte_toNat]

/-! ## The pop at plain stack addresses (R122) -/

/-- The pop's two reads leave no trace: it gives the two bytes there and moves `sp`. -/
theorem State.pop16_plain (s : State) (hlow : s.bus.dev.special s.sp = false)
    (hhigh : s.bus.dev.special (s.sp + 1#16) = false) :
    s.pop16 = (word16 (s.peek (s.sp + 1#16)) (s.peek s.sp), s.setSp (s.sp + 2#16)) := by
  simp only [State.pop16, s.busRead_plain _ hlow, s.busRead_plain _ hhigh, State.busRead_fst]

/-- Settles O16: RET is the pop, with the popped value as `pc` and the increment that adds the 1. -/
theorem retPopsAndAddsOne : Obligations.RetPopsAndAddsOne := by
  refine ⟨rfl, fun s => ⟨_, rfl, ?_, ?_, .of_reg_eq fun _ => rfl, rfl, s.pop16_bus, ?_, fun hlow hhigh => ⟨?_, ?_⟩⟩⟩
  · rw [State.postStep_pc_toNat, State.setPc_pc, State.pop16_value, word16_toNat, State.peek]
  · simp [BitVec.toNat_add]
  · simp [State.pop16_bus]
  · rw [State.postStep_pc_toNat, State.setPc_pc, s.pop16_plain hlow hhigh, word16_toNat]
  · rw [s.pop16_plain hlow hhigh]
    exact ⟨rfl, fun _ => rfl⟩

/-! ## The round trip (S5) -/

/-- A pop from the stack pointer and the bus that a push left gives the pushed value and takes `sp` back. -/
theorem State.pop16_of_push16 (s u : State) (v : Addr) (hlow : s.bus.dev.special (s.sp - 2#16) = false)
    (hhigh : s.bus.dev.special (s.sp - 2#16 + 1#16) = false) (hsp : u.sp = s.sp - 2#16) (hbus : u.bus = (s.push16 v).bus) :
    u.pop16 = (v, u.setSp s.sp) := by
  have hdev : u.bus.dev = s.bus.dev := by rw [hbus, s.push16_dev_plain v hlow hhigh]
  have hpeek : ∀ a, u.peek a = (s.push16 v).peek a := fun a => by rw [State.peek, hbus, State.peek]
  rw [State.pop16_plain u (by rwa [hdev, hsp]) (by rwa [hdev, hsp]), hpeek, hpeek, hsp, s.peek_push16_low v hlow hhigh,
    s.peek_push16_high v hlow hhigh, word16_high_low, BitVec.sub_add_cancel]

/-- Settles O17: the pop gives back the pushed `pc`, and RET's increment goes one past it. -/
theorem callThenRetReturns : Obligations.CallThenRetReturns := by
  intro s hlow hhigh
  refine ⟨_, rfl, fun u hsp hbus => ?_⟩
  have hpop : u.pop16 = (s.pc, u.setSp s.sp) := s.pop16_of_push16 u s.pc hlow hhigh hsp hbus
  have hret : exec .ret u = .next ((u.setSp s.sp).setPc s.pc).postStep := by rw [exec, execRet, hpop]
  exact ⟨_, hret, State.postStep_pc_toNat _, rfl, hbus⟩

end Sys2Proof.Machine

/-! Proofs of the statements about moves, LOAD and STORE (42_move_memory.md): GET and PUT write one register (R140, R141),
LOAD reads the bus into one (R142), and STORE writes the bus and no register (R143). -/

namespace Sys2Proof.Machine

/-! ## One register write (R140, R141) -/

theorem onlyRegs_setReg_postStep (s : State) (n : Reg) (v : Byte) : OnlyRegs [n] s (s.setReg n v).postStep :=
  ⟨((RegsKeptBut.of_reg_eq fun _ => rfl).setReg (List.mem_singleton_self n) v).postStep, ⟨rfl, rfl⟩, rfl, fun _ => rfl⟩

/-- Settles O22: the update is one write of register 0. -/
theorem getCopiesToAccumulator : Obligations.GetCopiesToAccumulator :=
  ⟨encodedAs_of_encodeByte fun _ => ⟨rfl, rfl, rfl⟩, fun n s =>
    ⟨_, rfl, s.reg_setReg_same 0#4 (s.reg n), s.postStep_pc_toNat, onlyRegs_setReg_postStep s 0#4 (s.reg n)⟩⟩

/-- Settles O23: the update is one write of register n, register 3 like any other. -/
theorem putCopiesFromAccumulator : Obligations.PutCopiesFromAccumulator :=
  ⟨encodedAs_of_encodeByte fun _ => ⟨rfl, rfl, rfl⟩, fun n s =>
    ⟨_, rfl, s.reg_setReg_same n s.acc, s.postStep_pc_toNat, onlyRegs_setReg_postStep s n s.acc⟩⟩

/-! ## LOAD (R142) -/

/-- A read, of a special address too, leaves what every plain address reads: the store and the special set stay (R61, R63). -/
theorem Bus.read_read_plain (b : Bus) (a c : Addr) (h : b.dev.special c = false) :
    ((b.read a).2.read c).1 = (b.read c).1 := by
  obtain ⟨hparams, -⟩ := b.read_dev_kept a
  have hplain : (b.read a).2.dev.special c = false := (hparams.special c).trans h
  rw [Bus.read_plain _ c hplain, Bus.read_plain b c h, Bus.read_store]

/-- Settles O24: a bus read and one register write; off the special set the read leaves no trace, so only the write is left. -/
theorem loadReadsAtTheAddressPair : Obligations.LoadReadsAtTheAddressPair := by
  refine ⟨encodedAs_of_encodeByte fun _ => ⟨rfl, rfl, rfl⟩, fun n s => ?_⟩
  obtain ⟨hregs, hsp_latch, -⟩ := onlyRegs_setReg_postStep (s.busRead s.addr16).2 n (s.peek s.addr16)
  refine ⟨_, rfl, State.reg_setReg_same _ n _, s.postStep_pc_toNat, hregs, hsp_latch, rfl, s.bus.read_store s.addr16,
    s.bus.read_read_plain s.addr16, fun hplain => ?_⟩
  rw [s.busRead_plain s.addr16 hplain]
  exact ⟨rfl, fun _ => rfl⟩

/-! ## STORE (R143) -/

/-- Settles O25: one bus write, which at a plain address is O41's. -/
theorem storeWritesAtTheAddressPair : Obligations.StoreWritesAtTheAddressPair := by
  refine ⟨encodedAs_of_encodeByte fun _ => ⟨rfl, rfl, rfl⟩, fun n s => ⟨_, rfl, s.postStep_pc_toNat, .of_reg_eq fun _ => rfl,
    ⟨rfl, rfl⟩, rfl, fun hplain => ?_⟩⟩
  obtain ⟨-, hread, hdev, hframe⟩ := plainAddressIsTheStore s.bus s.addr16 (s.reg n) hplain
  exact ⟨hread, hdev, fun a ha => (hframe a ha).1⟩

end Sys2Proof.Machine

/-! Proofs of the statements about compare (43_compare.md): CMPEQ (R160) and CMPGL (R161), which write their outcome into the
accumulator and nothing else, and the comparisons derived from them with NOT and SUB (R162). -/

namespace Sys2Proof.Machine

/-- The result of an accumulator operation is what register 0 holds after the step (R23). -/
theorem State.reg_zero_setAcc_postStep (s : State) (v : Byte) : (s.setAcc v).postStep.reg 0#4 = v := s.reg_setReg_same 0#4 v

/-! ## CMPEQ and CMPGL (R160, R161) -/

/-- Settles O27: the update is one write of register 0, with the outcome of the test for equality. -/
theorem cmpeqGivesOneOrZero : Obligations.CmpeqGivesOneOrZero := by
  refine ⟨encodedAs_of_encodeByte fun _ => ⟨rfl, rfl, rfl⟩, fun n s =>
    ⟨_, rfl, s.postStep_pc_toNat, onlyRegs_setReg_postStep s 0#4 _, fun heq => ?_, fun hne => ?_⟩⟩
  · rw [State.reg_zero_setAcc_postStep, compareEqual, if_pos heq]
  · rw [State.reg_zero_setAcc_postStep, compareEqual, if_neg hne]

/-- Settles O28: the update is one write of register 0, and DIR selects the comparison of `compareByDir_eq_ff`. -/
theorem cmpglComparesByDirection : Obligations.CmpglComparesByDirection := by
  refine ⟨encodedAs_of_encodeByte fun _ => ⟨rfl, rfl, rfl⟩, fun n s =>
    ⟨_, rfl, s.postStep_pc_toNat, onlyRegs_setReg_postStep s 0#4 _, ?_⟩⟩
  rw [State.reg_zero_setAcc_postStep, dirBit]
  refine ⟨compareByDir_values _ _ _, fun hdir => ?_, fun hdir => ?_⟩
  · rw [hdir]
    exact compareByDir_eq_ff true _ _
  · rw [hdir]
    exact compareByDir_eq_ff false _ _

/-! ## The derived comparisons (R162) -/

/-- NOT turns the less-than of DIR = 0 into `>=`. -/
theorem compareByDir_false_xor_ff (a b : Byte) :
    compareByDir false a b ^^^ 0xFF#8 = if b.toNat ≤ a.toNat then 0xFF#8 else 0x00#8 := by
  by_cases h : a.toNat < b.toNat
  · simp [compareByDir, h]
  · simp [compareByDir, Nat.not_lt.mp h]

/-- The greater-than of DIR = 1 is the less-than of DIR = 0 with the operands swapped. -/
theorem compareByDir_true_eq_swap (a b : Byte) : compareByDir true a b = compareByDir false b a := rfl

theorem exec_cmpgl_then_not (n : Reg) (s : State) : ∃ t u : State, exec (.cmpgl n) s = .next t ∧
    exec (.not 0#4) t = .next u ∧ u.reg 0#4 = compareByDir (dirBit (s.reg 3#4)) (s.reg 0#4) (s.reg n) ^^^ 0xFF#8 := by
  refine ⟨_, _, rfl, rfl, ?_⟩
  rw [State.reg_zero_setAcc_postStep, State.reg_zero_setAcc_postStep]

/-- A wrapped difference is zero only for equal operands (R172). -/
theorem subWrapped_eq_zero_iff (a b : Byte) : subWrapped a b = 0#8 ↔ a = b := by
  rw [← BitVec.toNat_inj, ← BitVec.toNat_inj, subWrapped_toNat, BitVec.toNat_ofNat]
  omega

theorem compareEqual_ne_zero_iff (a b : Byte) : compareEqual a b ≠ 0#8 ↔ a = b := by
  by_cases h : a = b
  · simp [compareEqual, h]
  · simp [compareEqual, h]

/-- Settles O29: NOT turns each direction's comparison into the other order; SUB's and CMPEQ's outcomes are zero as
`subWrapped_eq_zero_iff` and `compareEqual_ne_zero_iff` say. -/
theorem derivedComparisons : Obligations.DerivedComparisons := by
  intro n s
  refine ⟨?_, ⟨_, rfl, ?_⟩, ⟨_, rfl, ?_⟩⟩
  · obtain ⟨t, u, ht, hu, hacc⟩ := exec_cmpgl_then_not n s
    rw [dirBit] at hacc
    refine ⟨t, u, ht, hu, fun hdir => ?_, fun hdir => ?_⟩
    · rw [hacc, hdir, compareByDir_false_xor_ff]
    · rw [hacc, hdir, compareByDir_true_eq_swap, compareByDir_false_xor_ff]
  · rw [State.reg_zero_setAcc_postStep]
    exact not_congr (subWrapped_eq_zero_iff _ _)
  · rw [State.reg_zero_setAcc_postStep]
    exact compareEqual_ne_zero_iff _ _

end Sys2Proof.Machine

/-! Proofs of the statements about arithmetic and logic (44_alu.md): ADD and SUB write a flag and their result (R171, R172),
the shifts (R173, R174) and the bitwise operations (R175 to R177) write the accumulator only. -/

namespace Sys2Proof.Machine

/-! ## ADD and SUB (R171, R172) -/

theorem onlyRegs_setStatus_setAcc_postStep (s : State) (st v : Byte) :
    OnlyRegs [0#4, 3#4] s ((s.setStatus st).setAcc v).postStep :=
  ⟨regsKeptBut_setStatus_setAcc_postStep s st v, ⟨rfl, rfl⟩, rfl, fun _ => rfl⟩

theorem addOverflows_iff (a b : Byte) : addOverflows a b = true ↔ a.toNat + b.toNat > 255 := decide_eq_true_iff

theorem subUnderflows_iff (a b : Byte) : subUnderflows a b = true ↔ a.toNat < b.toNat := decide_eq_true_iff

/-- The wrapped difference is the integer difference modulo 256. -/
theorem subWrapped_toNat_eq_emod (a b : Byte) : ((subWrapped a b).toNat : Int) = (a.toNat - b.toNat : Int) % 256 := by
  rw [subWrapped_toNat]
  omega

/-- Settles O30: register 0 holds the wrapped sum, and `x[3]` the OV write, whose bits `withOv_bit` gives. -/
theorem addWrapsAndSetsOverflow : Obligations.AddWrapsAndSetsOverflow := by
  refine ⟨encodedAs_of_encodeByte fun _ => ⟨rfl, rfl, rfl⟩, fun n s =>
    ⟨_, rfl, s.postStep_pc_toNat, onlyRegs_setStatus_setAcc_postStep s _ _, ?_, ?_, fun k hk => ?_⟩⟩
  · rw [State.reg_zero_setAcc_postStep]
    exact addWrapped_toNat _ _
  · rw [exec_add_status rfl, withOv_bit, if_pos rfl]
    exact addOverflows_iff _ _
  · rw [exec_add_status rfl, withOv_bit, if_neg hk]

/-- Settles O31: register 0 holds the wrapped difference, and `x[3]` the UF write, whose bits `withUf_bit` gives. -/
theorem subWrapsAndSetsUnderflow : Obligations.SubWrapsAndSetsUnderflow := by
  refine ⟨encodedAs_of_encodeByte fun _ => ⟨rfl, rfl, rfl⟩, fun n s =>
    ⟨_, rfl, s.postStep_pc_toNat, onlyRegs_setStatus_setAcc_postStep s _ _, ?_, ?_, fun k hk => ?_⟩⟩
  · rw [State.reg_zero_setAcc_postStep]
    exact subWrapped_toNat_eq_emod _ _
  · rw [exec_sub_status rfl, withUf_bit, if_pos rfl]
    exact subUnderflows_iff _ _
  · rw [exec_sub_status rfl, withUf_bit, if_neg hk]

/-! ## Shifts by 8 or more, for each value of SHIFT_OVERSIZE (R173, R174, D7) -/

section OversizeShifts

variable (a n : Byte)

theorem shiftLeft_zero_oversize (h : 8 ≤ n.toNat) : shiftLeft .zero a n = 0#8 := if_neg (Nat.not_lt.mpr h)

theorem shiftRight_zero_oversize (h : 8 ≤ n.toNat) : shiftRight .zero a n = 0#8 := if_neg (Nat.not_lt.mpr h)

theorem shiftLeft_mod8_oversize (h : 8 ≤ n.toNat) :
    (shiftLeft .mod8 a n).toNat = a.toNat * 2 ^ (n.toNat % 8) % 256 := by
  rw [shiftLeft, if_neg (Nat.not_lt.mpr h), BitVec.toNat_shiftLeft, Nat.shiftLeft_eq]

theorem shiftRight_mod8_oversize (h : 8 ≤ n.toNat) :
    (shiftRight .mod8 a n).toNat = a.toNat / 2 ^ (n.toNat % 8) := by
  rw [shiftRight, if_neg (Nat.not_lt.mpr h), BitVec.toNat_ushiftRight, Nat.shiftRight_eq_div_pow]

end OversizeShifts

/-- Settles O32: below 8 by `shiftLeft_small`, from 8 on by the value of the parameter. -/
theorem shlShiftsLeft : Obligations.ShlShiftsLeft := by
  refine ⟨encodedAs_of_encodeByte fun _ => ⟨rfl, rfl, rfl⟩, fun n s =>
    ⟨_, rfl, s.postStep_pc_toNat, onlyRegs_setReg_postStep s 0#4 _, ?_⟩⟩
  rw [State.reg_zero_setAcc_postStep]
  refine ⟨shiftLeft_small _ _ _, fun h => ?_⟩
  cases Config.shiftOversize with
  | zero => rw [shiftLeft_zero_oversize _ _ h]; rfl
  | mod8 => exact shiftLeft_mod8_oversize _ _ h

/-- Settles O33: below 8 by `shiftRight_small`, from 8 on by the value of the parameter. -/
theorem shrShiftsRight : Obligations.ShrShiftsRight := by
  refine ⟨encodedAs_of_encodeByte fun _ => ⟨rfl, rfl, rfl⟩, fun n s =>
    ⟨_, rfl, s.postStep_pc_toNat, onlyRegs_setReg_postStep s 0#4 _, ?_⟩⟩
  rw [State.reg_zero_setAcc_postStep]
  refine ⟨shiftRight_small _ _ _, fun h => ?_⟩
  cases Config.shiftOversize with
  | zero => rw [shiftRight_zero_oversize _ _ h]; rfl
  | mod8 => exact shiftRight_mod8_oversize _ _ h

/-! ## Bitwise operations (R175 to R177) -/

/-- Settles O34: the update is one write of register 0, with the bitwise or. -/
theorem orIsBitwise : Obligations.OrIsBitwise := by
  refine ⟨encodedAs_of_encodeByte fun _ => ⟨rfl, rfl, rfl⟩, fun n s =>
    ⟨_, rfl, s.postStep_pc_toNat, onlyRegs_setReg_postStep s 0#4 _, fun k => ?_⟩⟩
  rw [State.reg_zero_setAcc_postStep]
  exact BitVec.getLsbD_or

/-- Settles O35: the update is one write of register 0, with the bitwise and. -/
theorem andIsBitwise : Obligations.AndIsBitwise := by
  refine ⟨encodedAs_of_encodeByte fun _ => ⟨rfl, rfl, rfl⟩, fun n s =>
    ⟨_, rfl, s.postStep_pc_toNat, onlyRegs_setReg_postStep s 0#4 _, fun k => ?_⟩⟩
  rw [State.reg_zero_setAcc_postStep]
  exact BitVec.getLsbD_and

/-- The model's exclusive or with 0xFF is the complement of R177 (D4). -/
theorem xor_ff_eq_not (v : Byte) : v ^^^ 0xFF#8 = ~~~v := BitVec.xor_allOnes

/-- Settles O36: the update is one write of register 0, with the complement of register n. -/
theorem notInvertsEveryBit : Obligations.NotInvertsEveryBit := by
  refine ⟨encodedAs_of_encodeByte fun _ => ⟨rfl, rfl, rfl⟩, fun n s =>
    ⟨_, rfl, s.postStep_pc_toNat, onlyRegs_setReg_postStep s 0#4 _, fun k hk => ?_⟩⟩
  rw [State.reg_zero_setAcc_postStep, xor_ff_eq_not, BitVec.getLsbD_not, decide_eq_true hk, Bool.true_and]

end Sys2Proof.Machine

/-! Proofs of the statements about the interrupt, the devices and the host (60_exceptions.md): interrupts (R203, R206), the
Button+LED device (R216), the Text display (R217), the Command/controller (R218), the host's input updates (R219), and what
every host call keeps (R214, R219). -/

namespace Sys2Proof.Machine

/-! ## Interrupts (R203, R206) -/

/-- Settles O48: the interrupt is one write of `pc`. -/
theorem interruptOnlySetsPc : Obligations.InterruptOnlySetsPc :=
  fun s addr => ⟨hostCall_interrupt s addr, rfl, onlyRegs_setPc s addr⟩

/-- Settles O49: the second write of `pc` overwrites the first. -/
theorem lastInterruptWins : Obligations.LastInterruptWins := by
  intro s a b
  have hlast (u : State) : hostCalls [.interrupt b] u = .next (u.interrupt b) :=
    hostCalls_cons_of_next (hostCall_interrupt u b)
  refine ⟨s.interrupt b, ?_, rfl, onlyRegs_setPc s b, hlast s⟩
  exact (hostCalls_cons_of_next (hostCall_interrupt s a)).trans (hlast (s.interrupt a))

/-! ## What every host call keeps (R214, R219) -/

/-- A property of the bus that no bus access, no store byte of a ROM load and no input update breaks. -/
structure Bus.HostClosed (P : Bus → Prop) : Prop where
  read : ∀ (b : Bus) (a : Addr), P b → P (b.read a).2
  write : ∀ (b : Bus) (a : Addr) (v : Byte), P b → P (b.write a v)
  writeStore : ∀ (b : Bus) (a : Addr) (v : Byte), P b → P (b.writeStore a v)
  update : ∀ (b : Bus) (c : HostCall), P b → P { b with dev := b.dev.update c }

namespace Bus.HostClosed

variable {P : Bus → Prop}

theorem replay (hP : HostClosed P) {b : Bus} (hb : P b) (l : List Transaction) : P (b.replay l) := by
  induction l generalizing b with
  | nil => exact hb
  | cons x l ih =>
    cases x with
    | read a => exact ih (hP.read b a hb)
    | write a v => exact ih (hP.write b a v hb)

theorem loadRom (hP : HostClosed P) {b : Bus} (hb : P b) (path : RomLoadPath) (base : Nat) (rom : List Byte) :
    P (Bus.loadRom path b base rom) := by
  induction rom generalizing b base with
  | nil => exact hb
  | cons v rom ih =>
    cases path with
    | store => exact ih (hP.writeStore b _ v hb) _
    | bus => exact ih (hP.write b _ v hb) _

/-- A ROM load that is not refused places the image and nothing else (R243). -/
theorem of_loadRom (hP : HostClosed P) {s t : State} {path : RomLoadPath} {rom : List Byte} (hs : P s.bus)
    (h : Machine.loadRom path rom s = .next t) : P t.bus := by
  unfold Machine.loadRom at h
  split at h
  · obtain rfl := Host.Outcome.next.inj h
    exact hP.loadRom hs path 0 rom
  · cases h

theorem of_step (hP : HostClosed P) {s t : State} (hs : P s.bus) (h : step s = .next t) : P t.bus := by
  rw [step_bus h]
  exact hP.replay hs _

theorem of_hostCall (hP : HostClosed P) {c : HostCall} {s t : State} (hs : P s.bus) (h : hostCall c s = .next t) :
    P t.bus := by
  cases c with
  | step => exact hP.of_step hs h
  | loadRom path rom => exact hP.of_loadRom hs h
  | reset | interrupt addr | render => obtain rfl := Host.Outcome.next.inj h; exact hs
  | button pressed | key k | inputs levels => obtain rfl := Host.Outcome.next.inj h; exact hP.update _ _ hs
  | busRead a => obtain rfl := Host.Outcome.next.inj h; exact hP.read _ a hs
  | busWrite a v => obtain rfl := Host.Outcome.next.inj h; exact hP.write _ a v hs

theorem of_hostCalls (hP : HostClosed P) {cs : List HostCall} {s t : State} (hs : P s.bus)
    (h : hostCalls cs s = .next t) : P t.bus := by
  induction cs generalizing s with
  | nil => obtain rfl := Host.Outcome.next.inj h; exact hs
  | cons c cs ih =>
    cases hc : hostCall c s with
    | next u => exact ih (hP.of_hostCall hs hc) (by rwa [hostCalls_cons_of_next hc] at h)
    | fault r => simp [hostCalls, hc] at h
    | refused r => simp [hostCalls, hc] at h

end Bus.HostClosed

/-- An input update sets one input field, or nothing: the parameters and the grid stay (R219). -/
theorem Device.update_kept (d : Device) (c : HostCall) : d.SameParams (d.update c) ∧ (d.Wf → (d.update c).Wf) := by
  unfold Device.update
  split
  · exact ⟨⟨rfl, rfl, rfl⟩, id⟩
  · exact ⟨rfl, id⟩
  · exact ⟨rfl, id⟩
  · exact ⟨Device.SameParams.refl _, id⟩

theorem Bus.hostClosed_sameParams (d : Device) : Bus.HostClosed fun b => d.SameParams b.dev where
  read b a h := h.trans (b.read_dev_kept a).1
  write b a v h := h.trans (b.write_dev a v).1
  writeStore _ _ _ h := h
  update b c h := h.trans (b.dev.update_kept c).1

theorem Bus.hostClosed_inv : Bus.HostClosed Bus.Inv where
  read _ a h := h.read a
  write _ a v h := h.write a v
  writeStore _ a v h := ⟨Memory.write_wf _ a v h.1, h.2⟩
  update b c h := ⟨h.1, (b.dev.update_kept c).2 h.2⟩

/-- Settles O47: having the parameters of the first device is a property of the bus that the host's calls keep. -/
theorem deviceParametersAreFixed : Obligations.DeviceParametersAreFixed :=
  ⟨fun s _ h => (Bus.hostClosed_sameParams s.bus.dev).of_step (.refl _) h,
    fun _ s _ h => (Bus.hostClosed_sameParams s.bus.dev).of_hostCalls (.refl _) h⟩

/-- Settles O57: the invariant is such a property, and the launch is a ROM load into the unset store, which meets it. -/
theorem hostCallsKeepTheInvariant : Obligations.HostCallsKeepTheInvariant :=
  ⟨fun _ _ _ hinv h => Bus.hostClosed_inv.of_hostCalls hinv h,
    fun _ _ _ _ hwf h => Bus.hostClosed_inv.of_loadRom ⟨Memory.nil_wf, hwf⟩ h⟩

/-! ## The Button+LED device (R216) -/

section ButtonLed

variable {b : Bus} {d : ButtonLed}

theorem Bus.read_buttonLed (h : b.dev = .buttonLed d) (a : Addr) : b.read a = b.readButtonLed d a := by rw [Bus.read, h]

theorem Bus.write_buttonLed (h : b.dev = .buttonLed d) (a : Addr) (v : Byte) : b.write a v = b.writeButtonLed d a v := by
  rw [Bus.write, h]

theorem Bus.read_button (h : b.dev = .buttonLed d) : b.read 1#16 = (d.buttonByte, b) := by
  rw [Bus.read_buttonLed h, Bus.readButtonLed, if_pos rfl]

/-- The LED address is read from the store too (D20). -/
theorem Bus.read_buttonLed_of_ne_one (h : b.dev = .buttonLed d) {a : Addr} (ha : a ≠ 1#16) :
    b.read a = (Memory.read b.store a, b) := by
  rw [Bus.read_buttonLed h, Bus.readButtonLed, if_neg ha, Bus.readStore]

theorem Bus.write_led (h : b.dev = .buttonLed d) (v : Byte) :
    b.write 0#16 v = { b.writeStore 0#16 v with dev := .buttonLed { d with led := v } } := by
  rw [Bus.write_buttonLed h, Bus.writeButtonLed, if_pos rfl]

theorem Bus.write_button (h : b.dev = .buttonLed d) (v : Byte) :
    b.write 1#16 v = b.writeStoreIf d.buttonStores 1#16 v := by
  rw [Bus.write_buttonLed h, Bus.writeButtonLed, if_neg (by decide), if_pos rfl]

theorem Device.special_buttonLed_of_ne {a : Addr} (hled : a ≠ 0#16) (hbutton : a ≠ 1#16) :
    (Device.buttonLed d).special a = false := by simp [Device.special, hled, hbutton]

end ButtonLed

/-- Settles O42: address 0 by its write and a read of the store, address 1 by the button byte, which no write there changes,
and the rest as plain addresses. -/
theorem buttonLedTable : Obligations.ButtonLedTable := by
  intro b d v h
  have hled : (b.write 0#16 v).dev = .buttonLed { d with led := v } := by rw [Bus.write_led h]
  have hstore : Memory.read (b.write 0#16 v).store 0#16 = v := by rw [Bus.write_led h]; exact Memory.read_write_same _ _ _
  have hbutton : (b.write 1#16 v).dev = b.dev := by rw [Bus.write_button h, Bus.writeStoreIf_dev]
  have hread0 := Bus.read_buttonLed_of_ne_one h (a := 0#16) (by decide)
  have hread0' := Bus.read_buttonLed_of_ne_one hled (a := 0#16) (by decide)
  have hread1 := Bus.read_button h
  have hread1' := Bus.read_button (hbutton.trans h)
  refine ⟨by rw [hread0], by rw [hread0], hled, hstore, by rw [hread0', hstore], ?_, by rw [hread1], ?_, hbutton, ?_⟩
  · rw [hread1]; rfl
  · rw [hread1, hread1']
  · intro a ha0 ha1
    have hplain : b.dev.special a = false := by rw [h, Device.special_buttonLed_of_ne ha0 ha1]
    exact ⟨by rw [b.read_plain a hplain], b.read_write_plain a v hplain⟩

/-! ## The Text display (R217) -/

section TextDisplay

variable {b : Bus} {d : TextDisplay}

theorem Bus.read_textDisplay (h : b.dev = .textDisplay d) (a : Addr) : b.read a = b.readTextDisplay d a := by
  rw [Bus.read, h]

theorem Bus.write_textDisplay (h : b.dev = .textDisplay d) (a : Addr) (v : Byte) :
    b.write a v = b.writeTextDisplay d a v := by rw [Bus.write, h]

theorem Bus.read_keyAddr (h : b.dev = .textDisplay d) :
    b.read d.params.keyAddr = (d.keyByte, { b with dev := .textDisplay d.afterKeyRead }) := by
  rw [Bus.read_textDisplay h, Bus.readTextDisplay, if_pos rfl]

theorem Bus.write_keyAddr (h : b.dev = .textDisplay d) (v : Byte) :
    b.write d.params.keyAddr v = b.writeStoreIf d.params.keyStores d.params.keyAddr v := by
  rw [Bus.write_textDisplay h, Bus.writeTextDisplay, if_pos rfl]

/-- A write to the read-only key address reaches at most the store behind it (I14). -/
theorem Bus.write_keyAddr_dev (h : b.dev = .textDisplay d) (v : Byte) : (b.write d.params.keyAddr v).dev = b.dev := by
  rw [Bus.write_keyAddr h, Bus.writeStoreIf_dev]

/-- The snapshot is of the store as the write leaves it (the model's order, notes entry 9). -/
theorem Bus.write_rowTrigger {row : WriteOnly} {base : Addr} {rowOf : List (Byte × Nat)} (h : b.dev = .textDisplay d)
    (hv : d.params.variant = .rowSelect row base rowOf) (hkey : row.addr ≠ d.params.keyAddr) (v : Byte) :
    (b.write row.addr v).dev = .textDisplay (d.snapshot (b.write row.addr v).store base (rowOf.lookup v)) := by
  simp only [Bus.write_textDisplay h, Bus.writeTextDisplay, if_neg hkey, hv, if_pos]

/-- Only its trigger changes a row-select display. -/
theorem Bus.write_rowSelect_dev {row : WriteOnly} {base : Addr} {rowOf : List (Byte × Nat)} (h : b.dev = .textDisplay d)
    (hv : d.params.variant = .rowSelect row base rowOf) {a : Addr} (ha : a ≠ row.addr) (v : Byte) :
    (b.write a v).dev = b.dev := by
  by_cases hkey : a = d.params.keyAddr
  · rw [hkey, Bus.write_keyAddr_dev h]
  · simp only [Bus.write_textDisplay h, Bus.writeTextDisplay, if_neg hkey, hv, if_neg ha, Bus.writeStore_dev]

theorem storeSlice_getElem? (m : Memory) (base : Addr) {cols k : Nat} (hk : k < cols) :
    (storeSlice m base cols)[k]? = some (Memory.read m (base + BitVec.ofNat 16 k)) := by
  simp [storeSlice, List.getElem?_range hk]

end TextDisplay

/-- Settles O46: the read gives the key byte, which a write to the key address does not change. -/
theorem keyAddressReads : Obligations.KeyAddressReads := by
  intro b d v h
  have hwrite : (b.write d.params.keyAddr v).dev = .textDisplay d := (Bus.write_keyAddr_dev h v).trans h
  rw [Bus.read_keyAddr h, Bus.read_keyAddr hwrite]
  refine ⟨fun k hk => ?_, fun hk => ?_, fun hc => ?_, fun hc => ?_, rfl⟩
  · simp [TextDisplay.keyByte, hk]
  · simp [TextDisplay.keyByte, hk]
  · simp [TextDisplay.afterKeyRead, hc, ← h]
  · simp [TextDisplay.afterKeyRead, hc]

/-- Settles O44: the snapshot replaces the selected row by the slice of the store, and no other write reaches the device. -/
theorem rowSelectTakesASnapshot : Obligations.RowSelectTakesASnapshot := by
  intro b d row base rowOf v r h hv hkey hrow hr
  have hdev := Bus.write_rowTrigger h hv hkey v
  rw [hrow] at hdev
  refine ⟨⟨_, hdev, rfl, rfl, List.length_set, ?_, ?_⟩, fun a w ha => Bus.write_rowSelect_dev h hv ha w⟩
  · exact ⟨_, List.getElem?_set_self hr, storeSlice_length _ _ _, fun k hk => storeSlice_getElem? _ _ hk⟩
  · exact fun q hq => List.getElem?_set_ne hq.symm

/-! ### The cell-addressed variant -/

/-- The cell of the grid at row `y` and column `x`. -/
def TextDisplay.cellAt (d : TextDisplay) (y x : Nat) : Option Byte := d.grid[y]?.bind fun row => row[x]?

/-- The update sets the cell under the cursor. -/
theorem TextDisplay.updateCell_cellAt_cursor {d : TextDisplay} {cells : List Byte}
    (hrow : d.grid[d.curY.toNat]? = some cells) (hcol : d.curX.toNat < cells.length) :
    d.updateCell.cellAt d.curY.toNat d.curX.toNat = some d.char := by
  obtain ⟨hlt, -⟩ := List.getElem?_eq_some_iff.mp hrow
  simp [cellAt, updateCell, List.getElem?_set_self hlt, hrow, hcol]

/-- The update keeps every other cell. -/
theorem TextDisplay.updateCell_cellAt_ne {d : TextDisplay} {y x : Nat} (h : y ≠ d.curY.toNat ∨ x ≠ d.curX.toNat) :
    d.updateCell.cellAt y x = d.cellAt y x := by
  by_cases hy : y = d.curY.toNat
  · have hx : x ≠ d.curX.toNat := h.resolve_left (absurd hy)
    subst hy
    cases hrow : d.grid[d.curY.toNat]? with
    | none => simp [cellAt, updateCell, List.set_eq_of_length_le (List.getElem?_eq_none_iff.mp hrow)]
    | some cells =>
      obtain ⟨hlt, -⟩ := List.getElem?_eq_some_iff.mp hrow
      simp [cellAt, updateCell, List.getElem?_set_self hlt, hrow, List.getElem?_set_ne hx.symm]
  · simp [cellAt, updateCell, List.getElem?_set_ne (Ne.symm hy)]

section CellWrite

variable {b : Bus} {d : TextDisplay} {char curX curY : WriteOnly} {onChar onCurX onCurY : Bool}

/-- A write to one of the three addresses latches its byte, and updates the cell if it is a trigger. -/
theorem Bus.write_cell_dev (h : b.dev = .textDisplay d) (hv : d.params.variant = .cell char curX curY onChar onCurX onCurY)
    (hdist : d.params.Distinct) (v : Byte) {w : WriteOnly} {trigger : Bool} {latched : TextDisplay}
    (hw : (w, trigger, latched) ∈ [(char, onChar, { d with char := v }), (curX, onCurX, { d with curX := v }),
      (curY, onCurY, { d with curY := v })]) :
    (b.write w.addr v).dev = .textDisplay (if trigger then latched.updateCell else latched) := by
  simp only [TextParams.Distinct, hv, TextVariant.writeOnly, List.map_cons, List.map_nil, List.nodup_cons, List.mem_cons,
    List.not_mem_nil, or_false, not_or] at hdist
  obtain ⟨⟨hchar, hcurX, hcurY⟩, ⟨hcharX, hcharY⟩, hXY, -⟩ := hdist
  simp only [List.mem_cons, List.not_mem_nil, or_false, Prod.mk.injEq] at hw
  rw [Bus.write_textDisplay h, Bus.writeTextDisplay, hv]
  rcases hw with ⟨rfl, rfl, rfl⟩ | ⟨rfl, rfl, rfl⟩ | ⟨rfl, rfl, rfl⟩
  · rw [if_neg (Ne.symm hchar)]
    simp only [if_pos, Bus.writeCell]
  · rw [if_neg (Ne.symm hcurX)]
    simp only [if_neg (Ne.symm hcharX), if_pos, Bus.writeCell]
  · rw [if_neg (Ne.symm hcurY)]
    simp only [if_neg (Ne.symm hcharY), if_neg (Ne.symm hXY), if_pos, Bus.writeCell]

/-- Latching a byte keeps the parameters, the key and the grid. -/
theorem latched_kept {v : Byte} {w : WriteOnly} {trigger : Bool} {latched : TextDisplay}
    (hw : (w, trigger, latched) ∈ [(char, onChar, { d with char := v }), (curX, onCurX, { d with curX := v }),
      (curY, onCurY, { d with curY := v })]) :
    latched.params = d.params ∧ latched.key = d.key ∧ latched.grid = d.grid := by
  simp only [List.mem_cons, List.not_mem_nil, or_false, Prod.mk.injEq] at hw
  rcases hw with ⟨-, -, rfl⟩ | ⟨-, -, rfl⟩ | ⟨-, -, rfl⟩ <;> exact ⟨rfl, rfl, rfl⟩

end CellWrite

/-- Settles O45: the write leaves the latched display, with the cell under its cursor updated if it is a trigger. -/
theorem cellWriteUpdatesOneCell : Obligations.CellWriteUpdatesOneCell := by
  intro b d char curX curY onChar onCurX onCurY v h hv hdist w trigger latched hw
  have hdev := Bus.write_cell_dev h hv hdist v hw
  obtain ⟨hparams, hkey, hgrid⟩ := latched_kept hw
  rw [← hparams, ← hkey, ← hgrid]
  cases trigger with
  | false => exact ⟨latched, hdev, rfl, rfl, rfl, rfl, rfl, rfl, nofun, fun _ _ _ => rfl⟩
  | true =>
    refine ⟨latched.updateCell, hdev, rfl, rfl, rfl, rfl, rfl, List.length_set, ?_, ?_⟩
    · exact fun _ _ hrow hcol => TextDisplay.updateCell_cellAt_cursor hrow hcol
    · exact fun _ _ hne => TextDisplay.updateCell_cellAt_ne (hne.resolve_left nofun)

/-! ## The Command/controller (R218) -/

section Command

variable {b : Bus} {d : Command}

theorem Bus.read_command (h : b.dev = .command d) (a : Addr) : b.read a = b.readCommand d a := by rw [Bus.read, h]

theorem Bus.write_command (h : b.dev = .command d) (a : Addr) (v : Byte) : b.write a v = b.writeCommand d a v := by
  rw [Bus.write, h]

/-- The address of a window byte is its index. -/
theorem window_toNat (i : Fin 128) : (BitVec.ofNat 16 i.val).toNat = i.val := by
  rw [BitVec.toNat_ofNat]; omega

theorem Bus.read_window (h : b.dev = .command d) (i : Fin 128) : b.read (BitVec.ofNat 16 i.val) = (d.rbuf[i], b) := by
  simp only [Bus.read_command h, Bus.readCommand, window_toNat, dif_pos i.isLt, Fin.getElem_fin]

theorem Bus.write_window (h : b.dev = .command d) (i : Fin 128) (v : Byte) :
    b.write (BitVec.ofNat 16 i.val) v = { b with dev := .command { d with wbuf := d.wbuf.set i v } } := by
  simp only [Bus.write_command h, Bus.writeCommand, window_toNat, dif_pos i.isLt]

theorem Bus.write_trigger (h : b.dev = .command d) (ht : 128 ≤ d.params.trigger.addr.toNat) (v : Byte) :
    (b.write d.params.trigger.addr v).dev = .command d.swap := by
  rw [Bus.write_command h, Bus.writeCommand, dif_neg (by omega), if_pos rfl]

theorem Bus.read_inputAddr (h : b.dev = .command d) (hd : d.params.Distinct) :
    b.read d.params.inputAddr = (d.inputByte, b) := by
  obtain ⟨-, hinput, hne⟩ := hd
  rw [Bus.read_command h, Bus.readCommand, dif_neg (by omega), if_neg hne.symm, if_pos rfl]

theorem Bus.write_inputAddr (h : b.dev = .command d) (hd : d.params.Distinct) (v : Byte) :
    b.write d.params.inputAddr v = b.writeStoreIf d.params.inputStores d.params.inputAddr v := by
  obtain ⟨-, hinput, hne⟩ := hd
  rw [Bus.write_command h, Bus.writeCommand, dif_neg (by omega), if_neg hne.symm, if_pos rfl]

/-- A write to the read-only input address reaches at most the store behind it (I14). -/
theorem Bus.write_inputAddr_dev (h : b.dev = .command d) (hd : d.params.Distinct) (v : Byte) :
    (b.write d.params.inputAddr v).dev = b.dev := by rw [Bus.write_inputAddr h hd, Bus.writeStoreIf_dev]

end Command

/-- The buffer `w` with the bytes of `f` at the listed indices written into it, one after the other. -/
def copyBytes (f w : Vector Byte 128) (l : List (Fin 128)) : Vector Byte 128 :=
  l.foldl (fun w (i : Fin 128) => w.set i f[i]) w

theorem copyBytes_cons (f w : Vector Byte 128) (i : Fin 128) (l : List (Fin 128)) :
    copyBytes f w (i :: l) = copyBytes f (w.set i f[i]) l := rfl

/-- Window writes at the listed indices are writes of the write buffer. -/
theorem Bus.foldl_write_window {b : Bus} {d : Command} (h : b.dev = .command d) (f : Vector Byte 128)
    (l : List (Fin 128)) :
    (l.foldl (fun c i => c.write (BitVec.ofNat 16 i.val) f[i]) b).dev =
      .command { d with wbuf := copyBytes f d.wbuf l } := by
  induction l generalizing b d with
  | nil => exact h
  | cons i l ih =>
    have hi : (b.write (BitVec.ofNat 16 i.val) f[i]).dev = .command { d with wbuf := d.wbuf.set i f[i] } := by
      rw [Bus.write_window h]
    exact ih hi

/-- The written bytes are there, and the rest of the buffer is as it was. -/
theorem copyBytes_getElem (f w : Vector Byte 128) (l : List (Fin 128)) (k : Fin 128) :
    (copyBytes f w l)[k] = if k ∈ l then f[k] else w[k] := by
  induction l generalizing w with
  | nil => simp [copyBytes]
  | cons i l ih =>
    rw [copyBytes_cons, ih]
    by_cases hl : k ∈ l
    · simp [hl]
    · by_cases hi : k = i
      · simp [hi]
      · have hne : i.val ≠ k.val := fun e => hi (Fin.ext e.symm)
        simp [hl, hi, Vector.getElem_set_ne, hne]

/-- Writes at all 128 indices replace the whole buffer. -/
theorem copyBytes_finRange (f w : Vector Byte 128) : copyBytes f w (List.finRange 128) = f := by
  apply Vector.ext
  intro k hk
  simpa using copyBytes_getElem f w (List.finRange 128) ⟨k, hk⟩

/-- Settles O43: the 128 writes replace the write buffer, and each trigger swaps the two. -/
theorem commandBuffersSwap : Obligations.CommandBuffersSwap := by
  intro b d f v w h ht filled once twice
  have hfilled : filled.dev = .command { d with wbuf := f } := by
    rw [Bus.foldl_write_window h, copyBytes_finRange]
  have honce : once.dev = .command { d with wbuf := d.rbuf, rbuf := f } := Bus.write_trigger hfilled ht v
  have htwice : twice.dev = .command { d with wbuf := f } := Bus.write_trigger honce ht w
  exact ⟨fun i => by rw [Bus.read_window hfilled], fun i => by rw [Bus.read_window honce], htwice.trans hfilled.symm, htwice⟩

/-! ## Input updates (R219) -/

section InputUpdate

variable {b : Bus}

theorem Bus.readWriteOnly_setDev_fst (b : Bus) (e : Device) (w : WriteOnly) (a : Addr) :
    ({ b with dev := e }.readWriteOnly w a).1 = (b.readWriteOnly w a).1 := by
  unfold Bus.readWriteOnly
  cases w.readBack <;> rfl

/-- The button is read at address 1 only. -/
theorem Bus.read_setPressed_of_ne {d : ButtonLed} (h : b.dev = .buttonLed d) (p : Bool) {c : Addr} (hc : c ≠ 1#16) :
    ({ b with dev := .buttonLed { d with pressed := p } }.read c).1 = (b.read c).1 := by
  rw [Bus.read_buttonLed_of_ne_one h hc, Bus.read_buttonLed_of_ne_one rfl hc]

/-- The key is read at the key address only. -/
theorem Bus.read_setKey_of_ne {d : TextDisplay} (h : b.dev = .textDisplay d) (k : Option Byte) {c : Addr}
    (hc : c ≠ d.params.keyAddr) : ({ b with dev := .textDisplay { d with key := k } }.read c).1 = (b.read c).1 := by
  rw [Bus.read_textDisplay h, Bus.read_textDisplay rfl, Bus.readTextDisplay, Bus.readTextDisplay, if_neg hc, if_neg hc]
  cases d.params.variant.writeOnly.find? (fun w => w.addr == c) with
  | none => rfl
  | some w => exact b.readWriteOnly_setDev_fst _ w c

/-- The digital inputs are read at the input address only. -/
theorem Bus.read_setInputs_of_ne {d : Command} (h : b.dev = .command d) (levels : List Bool) {c : Addr}
    (hc : c ≠ d.params.inputAddr) : ({ b with dev := .command { d with inputs := levels } }.read c).1 = (b.read c).1 := by
  rw [Bus.read_command h, Bus.read_command rfl, Bus.readCommand, Bus.readCommand, if_neg hc, if_neg hc]
  by_cases hwindow : c.toNat < 128
  · rw [dif_pos hwindow, dif_pos hwindow]
  · rw [dif_neg hwindow, dif_neg hwindow]
    by_cases htrigger : c = d.params.trigger.addr
    · rw [if_pos htrigger, if_pos htrigger]
      exact b.readWriteOnly_setDev_fst _ _ c
    · rw [if_neg htrigger, if_neg htrigger]
      rfl

/-- Only the device can differ after an input update, so the reads of the other addresses are what is left to compare. -/
theorem onlyInputAt_update {s : State} {c : HostCall} {a : Addr} (h : ∀ x, x ≠ a → (s.update c).peek x = s.peek x) :
    OnlyInputAt a s (s.update c) :=
  ⟨.of_reg_eq fun _ => rfl, rfl, ⟨rfl, rfl⟩, rfl, rfl, h⟩

theorem State.update_button_bus {s : State} {d : ButtonLed} (h : s.bus.dev = .buttonLed d) (p : Bool) :
    (s.update (.button p)).bus = { s.bus with dev := .buttonLed { d with pressed := p } } := by
  rw [State.update_bus, h]; rfl

theorem State.update_key_bus {s : State} {d : TextDisplay} (h : s.bus.dev = .textDisplay d) (k : Option Byte) :
    (s.update (.key k)).bus = { s.bus with dev := .textDisplay { d with key := k } } := by
  rw [State.update_bus, h]; rfl

theorem State.update_inputs_bus {s : State} {d : Command} (h : s.bus.dev = .command d) (levels : List Bool) :
    (s.update (.inputs levels)).bus = { s.bus with dev := .command { d with inputs := levels } } := by
  rw [State.update_bus, h]; rfl

/-- A bit of the input byte differs from the inverting parameter's exactly if an active input has that bit (R218, I12). -/
theorem Command.inputByte_getLsbD_ne_iff (d : Command) (k : Fin 8) :
    d.inputByte.getLsbD k.val ≠ d.params.inputInvert.getLsbD k.val ↔
      ∃ j : Nat, d.inputs[j]? = some true ∧ d.params.inputBits[j]? = some k := by
  rw [← activeInputs_getLsbD, Command.inputByte, BitVec.getLsbD_xor]
  generalize (activeInputs d.inputs d.params.inputBits).getLsbD k.val = active
  generalize d.params.inputInvert.getLsbD k.val = invert
  cases active <;> simp

end InputUpdate

theorem buttonUpdate_isRead (s : State) (d : ButtonLed) (p : Bool) (h : s.bus.dev = .buttonLed d) :
    ∃ t : State, hostCall (.button p) s = .next t ∧ OnlyInputAt 1#16 s t ∧
      t.bus.dev = .buttonLed { d with pressed := p } ∧ t.peek 1#16 = if p = true then d.pressedByte else d.releasedByte := by
  have hbus := State.update_button_bus h p
  have hdev : (s.update (.button p)).bus.dev = .buttonLed { d with pressed := p } := by rw [hbus]
  refine ⟨_, rfl, onlyInputAt_update fun c hc => ?_, hdev, ?_⟩
  · rw [State.peek, hbus]
    exact Bus.read_setPressed_of_ne h p hc
  · rw [State.peek, Bus.read_button hdev]
    rfl

theorem keyUpdate_isRead (s : State) (d : TextDisplay) (k : Option Byte) (h : s.bus.dev = .textDisplay d) :
    ∃ t : State, hostCall (.key k) s = .next t ∧ OnlyInputAt d.params.keyAddr s t ∧
      t.bus.dev = .textDisplay { d with key := k } ∧ t.peek d.params.keyAddr = k.getD d.params.keySentinel := by
  have hbus := State.update_key_bus h k
  have hdev : (s.update (.key k)).bus.dev = .textDisplay { d with key := k } := by rw [hbus]
  refine ⟨_, rfl, onlyInputAt_update fun c hc => ?_, hdev, ?_⟩
  · rw [State.peek, hbus]
    exact Bus.read_setKey_of_ne h k hc
  · exact congrArg Prod.fst (Bus.read_keyAddr hdev)

theorem inputsUpdate_isRead (s : State) (d : Command) (levels : List Bool) (h : s.bus.dev = .command d)
    (hd : d.params.Distinct) :
    ∃ t : State, hostCall (.inputs levels) s = .next t ∧ OnlyInputAt d.params.inputAddr s t ∧
      t.bus.dev = .command { d with inputs := levels } ∧
      t.bus.read d.params.inputAddr = ({ d with inputs := levels }.inputByte, t.bus) := by
  have hbus := State.update_inputs_bus h levels
  have hdev : (s.update (.inputs levels)).bus.dev = .command { d with inputs := levels } := by rw [hbus]
  refine ⟨_, rfl, onlyInputAt_update fun c hc => ?_, hdev, Bus.read_inputAddr hdev hd⟩
  rw [State.peek, hbus]
  exact Bus.read_setInputs_of_ne h levels hc

/-- Settles O60: each update sets its input in the device, and the read-only address reads it. -/
theorem inputUpdatesAreRead : Obligations.InputUpdatesAreRead := by
  refine fun s => ⟨buttonUpdate_isRead s, fun d k h => ?_, fun d levels h hd => ?_⟩
  · obtain ⟨t, ht, honly, hdev, hpeek⟩ := keyUpdate_isRead s d k h
    exact ⟨t, ht, honly, hdev, by cases k <;> exact hpeek⟩
  · obtain ⟨t, ht, honly, hdev, hread⟩ := inputsUpdate_isRead s d levels h hd
    have hpeek : t.peek d.params.inputAddr = { d with inputs := levels }.inputByte := congrArg Prod.fst hread
    refine ⟨t, ht, honly, hdev, fun k => ?_, congrArg Prod.snd hread, fun v => ?_⟩
    · rw [hpeek]
      exact Command.inputByte_getLsbD_ne_iff _ k
    · have hwrite : (t.bus.write d.params.inputAddr v).dev = t.bus.dev := Bus.write_inputAddr_dev hdev hd v
      exact ⟨hwrite, by rw [hpeek, Bus.read_inputAddr (hwrite.trans hdev) hd]⟩

end Sys2Proof.Machine

/-! Proofs of the statements about reset and hazards (70_reset_and_hazards.md): the host's reset (R240, R242), and the halted
machine, by itself and under the host's further calls (R245). -/

namespace Sys2Proof.Machine

/-! ## Reset (R240, R242) -/

/-- Settles O52: the core is that of the reset state (O51), and the bus is the one the reset found. -/
theorem hostResetKeepsTheBus : Obligations.HostResetKeepsTheBus :=
  fun s => ⟨s.hostReset, rfl, State.reset_reg, rfl, rfl, rfl, rfl, fun _ => rfl⟩

/-! ## The halted machine (R245) -/

/-- The fetch at a quiet `pc` leaves no trace, and the byte it gives is a HALT, which changes nothing (R123). -/
theorem State.Halted.step_eq {s : State} (h : s.Halted) : step s = .next s := by
  obtain ⟨hlatch, hquiet, hbyte⟩ := h
  obtain ⟨hdecode, hhalt⟩ := haltChangesNothing
  rw [step, s.fetch_quiet hquiet, hlatch, hbyte]
  exact hdecode ▸ hhalt s

theorem run_of_step_eq_self {M : Host.Core} {s : M.State} (h : M.step s = .next s) (k : Nat) : M.run k s = .next s := by
  induction k with
  | zero => rfl
  | succ k ih => rw [Host.Core.run, h]; exact ih

/-! ## The host's calls on a halted machine (R213, R245) -/

theorem hostCalls_cons_eq_next {c : HostCall} {cs : List HostCall} {s t : State} (h : hostCalls (c :: cs) s = .next t) :
    ∃ u, hostCall c s = .next u ∧ hostCalls cs u = .next t := by
  cases hc : hostCall c s with
  | next u => exact ⟨u, rfl, by rwa [hostCalls_cons_of_next hc] at h⟩
  | fault r => simp [hostCalls, hc] at h
  | refused r => simp [hostCalls, hc] at h

/-- The core of a halted machine survives every call but an interrupt and a reset, a step included. -/
theorem State.Halted.hostCall_core {s t : State} {c : HostCall} (h : s.Halted) (hmove : c.movesCore = false)
    (hc : hostCall c s = .next t) : t = { s with bus := t.bus } := by
  by_cases hstep : c = .step
  · subst hstep
    obtain rfl := Host.Outcome.next.inj (h.step_eq.symm.trans hc)
    rfl
  · obtain ⟨hregs, hpc, hsp, hlatch⟩ := Machine.hostCall_core c s t hc hstep hmove
    rw [← hregs, ← hpc, ← hsp, ← hlatch]

/-- One call consumes the head of the host's future: the core stays, so the address at `pc` does, and the device keeps the
parameters that make its read quiet. -/
theorem State.HaltedRun.hostCall {s t : State} {c : HostCall} {cs : List HostCall} (h : s.HaltedRun (c :: cs))
    (hmove : c.movesCore = false) (hc : hostCall c s = .next t) : t.HaltedRun cs ∧ t = { s with bus := t.bus } := by
  obtain ⟨hhalted, hnone⟩ := h
  have hcore := hhalted.hostCall_core hmove hc
  have hpc : t.pc = s.pc := by rw [hcore]
  have hlatch : t.latch = s.latch := by rw [hcore]
  have hparams := (Bus.hostClosed_sameParams s.bus.dev).of_hostCall (.refl _) hc
  obtain ⟨hbyte, hnone⟩ := hnone t hc
  obtain ⟨harmed, hquiet, hhalt⟩ := hhalted
  rw [← hpc] at hbyte hquiet hnone
  exact ⟨⟨⟨by rw [hlatch, harmed], hparams.readQuiet hquiet, by rw [hbyte, hpc, hhalt]⟩, hnone⟩, hcore⟩

theorem State.HaltedRun.hostCalls {s t : State} {cs ds : List HostCall} (h : s.HaltedRun (cs ++ ds))
    (hmove : ∀ c ∈ cs, c.movesCore = false) (hcs : hostCalls cs s = .next t) :
    t.HaltedRun ds ∧ t = { s with bus := t.bus } := by
  induction cs generalizing s with
  | nil =>
    obtain rfl := Host.Outcome.next.inj hcs
    exact ⟨h, rfl⟩
  | cons c cs ih =>
    obtain ⟨u, hc, hcs⟩ := hostCalls_cons_eq_next hcs
    obtain ⟨hmove_c, hmove_cs⟩ := List.forall_mem_cons.mp hmove
    obtain ⟨hu, hcore_u⟩ := h.hostCall hmove_c hc
    obtain ⟨ht, hcore_t⟩ := ih hu hmove_cs hcs
    rw [hcore_u] at hcore_t
    exact ⟨ht, hcore_t⟩

/-- Settles O19: a step of a halted state is the identity, and the host's calls lead from one halted run to another with the
same core. -/
theorem haltedMachineStaysPut : Obligations.HaltedMachineStaysPut := by
  refine ⟨fun s k h => run_of_step_eq_self (M := Sys2Proof.core) h.step_eq k, ?_⟩
  rintro s _ h hmove cs ds t rfl ht
  obtain ⟨⟨hhalted, -⟩, hcore⟩ := h.hostCalls (fun c hc => hmove c (List.mem_append_left ds hc)) ht
  refine ⟨hhalted.step_eq, hhalted, ?_⟩
  rw [hcore]
  exact ⟨rfl, .of_reg_eq fun _ => rfl, rfl, rfl⟩

end Sys2Proof.Machine
